-- ==== Sys2Proof/Word.lean ====
section
/-! DEFINITION. The data types of the block: the 32-bit location, the 12-bit coefficient, the window offset
(`00_scope.md` rules R5 and R7, `10_state.md` rules R20 and R23). -/

namespace Sys2Proof

/-- One 32-bit location of the register window, and one command word (R5, R70). -/
abbrev Word := BitVec 32

/-- One stored coefficient: 12 bits, unsigned (R21, R23). That it is below q is an invariant, `Safety.lean`. -/
abbrev Coef := BitVec 12

/-- A byte offset inside the 32 KiB window (R39, R50). -/
abbrev Offset := BitVec 15

/-- The 256 coefficients of one slot, index 0 first (R23). -/
abbrev RingElt := Vector Coef 256

/-- The number of a scalar register, C0 to C15 (R21, R72). -/
abbrev CReg := Fin 16

/-- The number of a ring-element slot (R23, R72). -/
abbrev Slot := Fin 16

/-- The index of a coefficient in its slot (R72). -/
abbrev CoefIdx := Fin 256

/-- An index into the root table (R26, R72). -/
abbrev RootIdx := Fin 128

end Sys2Proof
end

