-- ==== Sys2Proof/Syntax.lean ====
section
/-! DEFINITION. The 20 commands, one constructor per row of the opcode table, each with the operand fields of its
format (`30_encoding.md` rules R71, R72 and R74), and the command sequences that rule R79 names. -/

namespace Sys2Proof

/-- One command. Operands stand in the order of the assembler syntax of R78. -/
inductive Instr where
  /-- no operation, R160 -/
  | nop
  /-- zeroize all secret-bearing state, R161 -/
  | zall
  /-- Montgomery multiply, R104 -/
  | mmul (cd ca cb : CReg)
  /-- modular add, R105 -/
  | madd (cd ca cb : CReg)
  /-- modular subtract, R106 -/
  | msub (cd ca cb : CReg)
  /-- forward butterfly, R122 -/
  | bfct (ca cb : CReg) (z : RootIdx)
  /-- inverse butterfly, R123 -/
  | bfgs (ca cb : CReg) (z : RootIdx)
  /-- load immediate, R107 -/
  | ldi (cd : CReg) (imm : BitVec 12)
  /-- load a coefficient, R108 -/
  | ldc (c : CReg) (p : Slot) (idx : CoefIdx)
  /-- store a coefficient, R109 -/
  | stc (c : CReg) (p : Slot) (idx : CoefIdx)
  /-- add two ring elements, R131 -/
  | padd (pd pa pb : Slot)
  /-- subtract two ring elements, R132 -/
  | psub (pd pa pb : Slot)
  /-- product in the NTT domain, R135 -/
  | pmul (pd pa pb : Slot)
  /-- forward transform, R133 -/
  | pntt (pd pa : Slot)
  /-- inverse transform, R134 -/
  | pintt (pd pa : Slot)
  /-- copy a ring element, R136 -/
  | pcopy (pd pa : Slot)
  /-- zeroize a slot, R137 -/
  | pzero (pd : Slot)
  /-- clear the difference accumulator, R151 -/
  | ctclr
  /-- accumulate one pair of words, R152 -/
  | ctacc
  /-- constant-time select, R153 -/
  | csel
  deriving DecidableEq, Repr

/-- The row's mnemonic in the opcode table (R74). -/
def Instr.mnemonic : Instr → String
  | .nop => "NOP"
  | .zall => "ZALL"
  | .mmul _ _ _ => "MMUL"
  | .madd _ _ _ => "MADD"
  | .msub _ _ _ => "MSUB"
  | .bfct _ _ _ => "BFCT"
  | .bfgs _ _ _ => "BFGS"
  | .ldi _ _ => "LDI"
  | .ldc _ _ _ => "LDC"
  | .stc _ _ _ => "STC"
  | .padd _ _ _ => "PADD"
  | .psub _ _ _ => "PSUB"
  | .pmul _ _ _ => "PMUL"
  | .pntt _ _ => "PNTT"
  | .pintt _ _ => "PINTT"
  | .pcopy _ _ => "PCOPY"
  | .pzero _ => "PZERO"
  | .ctclr => "CTCLR"
  | .ctacc => "CTACC"
  | .csel => "CSEL"

/-- `MULQ cd, ca, cb, ct` of R79: the plain modular product. -/
def Instr.mulq (cd ca cb ct : CReg) : List Instr := [.mmul cd ca cb, .ldi ct 1353#12, .mmul cd cd ct]

/-- `TOMONT cd, ca, ct` of R79: into Montgomery form. -/
def Instr.toMont (cd ca ct : CReg) : List Instr := [.ldi ct 1353#12, .mmul cd ca ct]

/-- `FROMMONT cd, ca, ct` of R79: out of Montgomery form. -/
def Instr.fromMont (cd ca ct : CReg) : List Instr := [.ldi ct 1#12, .mmul cd ca ct]

end Sys2Proof
end

