-- ==== Sys2Proof/WellFormed.lean ====
section
/-! DEFINITION. The one check on operands that is part of the encoding: the two legs of a butterfly are different
registers (`30_encoding.md` rules R72 and R75 (c)). Every other value of every field is legal. An immediate of 3329
or more is legal as an encoding and refused at issue (R73), so it is no check here. -/

namespace Sys2Proof

/-- R72: every field value is legal, but for `ca = cb` in format SB. -/
def Instr.wellFormed : Instr → Bool
  | .bfct ca cb _ => ca != cb
  | .bfgs ca cb _ => ca != cb
  | .nop => true
  | .zall => true
  | .mmul _ _ _ => true
  | .madd _ _ _ => true
  | .msub _ _ _ => true
  | .ldi _ _ => true
  | .ldc _ _ _ => true
  | .stc _ _ _ => true
  | .padd _ _ _ => true
  | .psub _ _ _ => true
  | .pmul _ _ _ => true
  | .pntt _ _ => true
  | .pintt _ _ => true
  | .pcopy _ _ => true
  | .pzero _ => true
  | .ctclr => true
  | .ctacc => true
  | .csel => true

/-- The instruction has an encoding. -/
abbrev Instr.WellFormed (i : Instr) : Prop := i.wellFormed = true

end Sys2Proof
end

