-- ==== Sys2Proof/Decode.lean ====
section
/-! DEFINITION. Decoding and encoding of command words (`30_encoding.md` rules R70 to R75, R78 and R80). -/

namespace Sys2Proof

/-- Why a word is illegal: the three grounds (a), (b) and (c) of R75. -/
inductive Illegal where
  /-- (a) bits 31:24 are none of the 20 opcodes -/
  | unknownOpcode
  /-- (b) a must-be-zero bit of the format is 1 -/
  | mustBeZero
  /-- (c) BFCT or BFGS with `ca = cb` -/
  | sameLegs
  deriving DecidableEq, Repr

/-- `w[31:24]` (R70). -/
def opcodeOf (w : Word) : BitVec 8 := w.extractLsb' 24 8

/-- The 4-bit operand field in bits 23:20 (R71). -/
def field1 (w : Word) : Fin 16 := (w.extractLsb' 20 4).toFin

/-- The 4-bit operand field in bits 19:16 (R71). -/
def field2 (w : Word) : Fin 16 := (w.extractLsb' 16 4).toFin

/-- The 4-bit operand field in bits 15:12 (R71). -/
def field3 (w : Word) : Fin 16 := (w.extractLsb' 12 4).toFin

/-- The root index in bits 14:8 of format SB (R71). -/
def fieldZ (w : Word) : RootIdx := (w.extractLsb' 8 7).toFin

/-- The coefficient index in bits 15:8 of format SM (R71). -/
def fieldIdx (w : Word) : CoefIdx := (w.extractLsb' 8 8).toFin

/-- The immediate in bits 11:0 of format SI (R71, R73). -/
def fieldImm (w : Word) : BitVec 12 := w.extractLsb' 0 12

/-- The row of R74 for an opcode: the mask whose bits are fixed, and the command with its fields taken from `w`. -/
def rowOf (op : BitVec 8) (w : Word) : Option (Word × Instr) :=
  match op.toNat with
  | 0x00 => some (0xFFFFFFFF#32, .nop)
  | 0x01 => some (0xFFFFFFFF#32, .zall)
  | 0x10 => some (0xFF000FFF#32, .mmul (field1 w) (field2 w) (field3 w))
  | 0x11 => some (0xFF000FFF#32, .madd (field1 w) (field2 w) (field3 w))
  | 0x12 => some (0xFF000FFF#32, .msub (field1 w) (field2 w) (field3 w))
  | 0x13 => some (0xFF0080FF#32, .bfct (field1 w) (field2 w) (fieldZ w))
  | 0x14 => some (0xFF0080FF#32, .bfgs (field1 w) (field2 w) (fieldZ w))
  | 0x15 => some (0xFF0FF000#32, .ldi (field1 w) (fieldImm w))
  | 0x16 => some (0xFF0000FF#32, .ldc (field1 w) (field2 w) (fieldIdx w))
  | 0x17 => some (0xFF0000FF#32, .stc (field1 w) (field2 w) (fieldIdx w))
  | 0x20 => some (0xFF000FFF#32, .padd (field1 w) (field2 w) (field3 w))
  | 0x21 => some (0xFF000FFF#32, .psub (field1 w) (field2 w) (field3 w))
  | 0x22 => some (0xFF000FFF#32, .pmul (field1 w) (field2 w) (field3 w))
  | 0x23 => some (0xFF00FFFF#32, .pntt (field1 w) (field2 w))
  | 0x24 => some (0xFF00FFFF#32, .pintt (field1 w) (field2 w))
  | 0x25 => some (0xFF00FFFF#32, .pcopy (field1 w) (field2 w))
  | 0x26 => some (0xFF0FFFFF#32, .pzero (field1 w))
  | 0x30 => some (0xFFFFFFFF#32, .ctclr)
  | 0x31 => some (0xFFFFFFFF#32, .ctacc)
  | 0x32 => some (0xFFFFFFFF#32, .csel)
  | _ => none

/-- `decode(w)` of R80, total on every word: the opcode's row, then the must-be-zero bits, then the legs of a
butterfly. -/
def decode (w : Word) : Except Illegal Instr :=
  match rowOf (opcodeOf w) w with
  | none => .error .unknownOpcode
  | some (mask, i) =>
    if w &&& mask = opcodeOf w ++ 0#24 then
      if i.wellFormed then .ok i else .error .sameLegs
    else .error .mustBeZero

/-- A 4-bit operand field as bits. -/
def nibble (r : Fin 16) : BitVec 4 := BitVec.ofFin r

/-- The word of a command: the fields of R71 side by side, opcode first (the construction of R78). -/
def encode : Instr → Word
  | .nop => 0x00#8 ++ 0#24
  | .zall => 0x01#8 ++ 0#24
  | .mmul cd ca cb => 0x10#8 ++ nibble cd ++ nibble ca ++ nibble cb ++ 0#12
  | .madd cd ca cb => 0x11#8 ++ nibble cd ++ nibble ca ++ nibble cb ++ 0#12
  | .msub cd ca cb => 0x12#8 ++ nibble cd ++ nibble ca ++ nibble cb ++ 0#12
  | .bfct ca cb z => 0x13#8 ++ nibble ca ++ nibble cb ++ 0#1 ++ (BitVec.ofFin z : BitVec 7) ++ 0#8
  | .bfgs ca cb z => 0x14#8 ++ nibble ca ++ nibble cb ++ 0#1 ++ (BitVec.ofFin z : BitVec 7) ++ 0#8
  | .ldi cd imm => 0x15#8 ++ nibble cd ++ 0#8 ++ imm
  | .ldc c p idx => 0x16#8 ++ nibble c ++ nibble p ++ (BitVec.ofFin idx : BitVec 8) ++ 0#8
  | .stc c p idx => 0x17#8 ++ nibble c ++ nibble p ++ (BitVec.ofFin idx : BitVec 8) ++ 0#8
  | .padd pd pa pb => 0x20#8 ++ nibble pd ++ nibble pa ++ nibble pb ++ 0#12
  | .psub pd pa pb => 0x21#8 ++ nibble pd ++ nibble pa ++ nibble pb ++ 0#12
  | .pmul pd pa pb => 0x22#8 ++ nibble pd ++ nibble pa ++ nibble pb ++ 0#12
  | .pntt pd pa => 0x23#8 ++ nibble pd ++ nibble pa ++ 0#16
  | .pintt pd pa => 0x24#8 ++ nibble pd ++ nibble pa ++ 0#16
  | .pcopy pd pa => 0x25#8 ++ nibble pd ++ nibble pa ++ 0#16
  | .pzero pd => 0x26#8 ++ nibble pd ++ 0#20
  | .ctclr => 0x30#8 ++ 0#24
  | .ctacc => 0x31#8 ++ 0#24
  | .csel => 0x32#8 ++ 0#24

/-- The table of R74 as rows (mnemonic, match, mask), kept apart from `rowOf` so that a statement can compare the
decoder with it. -/
def opcodeTable : List (String × Word × Word) :=
  [("NOP", 0x00000000#32, 0xFFFFFFFF#32), ("ZALL", 0x01000000#32, 0xFFFFFFFF#32),
   ("MMUL", 0x10000000#32, 0xFF000FFF#32), ("MADD", 0x11000000#32, 0xFF000FFF#32),
   ("MSUB", 0x12000000#32, 0xFF000FFF#32)]
  ++ [("BFCT", 0x13000000#32, 0xFF0080FF#32), ("BFGS", 0x14000000#32, 0xFF0080FF#32),
   ("LDI", 0x15000000#32, 0xFF0FF000#32), ("LDC", 0x16000000#32, 0xFF0000FF#32),
   ("STC", 0x17000000#32, 0xFF0000FF#32)]
  ++ [("PADD", 0x20000000#32, 0xFF000FFF#32), ("PSUB", 0x21000000#32, 0xFF000FFF#32),
   ("PMUL", 0x22000000#32, 0xFF000FFF#32), ("PNTT", 0x23000000#32, 0xFF00FFFF#32),
   ("PINTT", 0x24000000#32, 0xFF00FFFF#32)]
  ++ [("PCOPY", 0x25000000#32, 0xFF00FFFF#32), ("PZERO", 0x26000000#32, 0xFF0FFFFF#32),
   ("CTCLR", 0x30000000#32, 0xFFFFFFFF#32), ("CTACC", 0x31000000#32, 0xFFFFFFFF#32),
   ("CSEL", 0x32000000#32, 0xFFFFFFFF#32)]

/-- The instruction the decoder reads from the table word `w` (every command is one 32-bit word, R70, so `nbits` is
always 32); none where it refuses. -/
def decodeTableWord (_nbits w : Nat) : Option Instr :=
  match decode (BitVec.ofNat 32 w) with
  | .ok i => some i
  | .error _ => none

end Sys2Proof
end

