-- ==== Sys2Proof/Config.lean ====
section
/-! DEFINITION. The fixed parameters of the block (`00_scope.md` rule R5). The two parameters that rule leaves open,
BASE and the completion delay, are read by no rule and have no constant here (DEDUCED: assumptions
9 and 10). No value of
this hardware is free: `93_implementation_defined.md` part 3. -/

namespace Sys2Proof.Config

/-- The modulus. -/
abbrev q : Nat := 3329

/-- The inverse of the Montgomery radix 2^16 modulo q (R5, R100). -/
abbrev rInv : Nat := 169

/-- 2^32 modulo q, which takes a value into Montgomery form (R5, R100). -/
abbrev r2 : Nat := 1353

/-- 2^16 modulo q, the Montgomery form of 1 (R5, R100). -/
abbrev rModQ : Nat := 2285

/-- -q^-1 modulo 2^16, used by the datapath of R101. -/
abbrev qp : Nat := 3327

/-- The primitive 256th root of unity (R5, R120). -/
abbrev root : Nat := 17

/-- The Montgomery form of 128^-1, the last factor of the inverse transform (R134). -/
abbrev scale : Nat := 512

/-- What the ID register reads (R34). -/
abbrev idValue : Word := 0x4D4D0D01#32

/-- The window offset of the CMD register (R35, R36). -/
abbrev cmdOffset : Offset := 0x0004#15

end Sys2Proof.Config
end

