-- ==== Sys2Proof/Machine/State.lean ====
section
/-! DEFINITION. The state of the machine (`10_state.md` rule R20: every row of its table is a field), the transactions
and events that drive it (`20_memory.md` rule R50, `00_scope.md` rule R6), the five fault causes (`60_exceptions.md`
rule R171), the ways a step can stop, and the state after reset (`70_reset_and_hazards.md` rule R191). -/

namespace Sys2Proof.Machine

/-- The size of a transaction in bytes: 1, 2 or 4 (R50). -/
inductive Width where
  | one
  | two
  | four
  deriving DecidableEq, Repr

/-- The data of a write: an unsigned value of `8 * size` bits (R50). -/
inductive WriteData where
  | byte (v : BitVec 8)
  | half (v : BitVec 16)
  | word (v : Word)
  deriving DecidableEq, Repr

/-- One host transaction: kind, offset, size and, for a write, data (R50). -/
inductive Txn where
  | read (off : Offset) (size : Width)
  | write (off : Offset) (data : WriteData)
  deriving DecidableEq, Repr

/-- One step of one of the three agents (R6). -/
inductive Event where
  /-- the host performs one transaction -/
  | host (t : Txn)
  /-- the engine's turn: it completes the pending command, if there is one -/
  | engine
  /-- the external reset -/
  | reset
  deriving DecidableEq, Repr

/-- The five fault causes of R171. They are recorded in ERR, FADDR and FDATA and stop nothing. -/
inductive Cause where
  | illcmd
  | domain
  | range
  | busyacc
  | access
  deriving DecidableEq, Repr

/-- What stops the machine. The spec's own faults do not (R178): this is only the stuck state of assumption 4 (DEDUCED,
safe). -/
inductive Fault where
  /-- Raised by `complete` when PEND holds a word that decodes to no command. Safe: R81 accepts no such word, so no run
  from reset reaches it (DEDUCED: assumption 4). -/
  | illegalPending (w : Word)
  deriving DecidableEq, Repr

/-- What the model gives no meaning to. -/
inductive Refusal where
  /-- Raised by `exec` alone, for an instruction without a meaning; safe. No arm of this model uses it. -/
  | notModelled (mnemonic : String)
  deriving DecidableEq, Repr

/-- The complete state. The fields from `c` to `fdata` are the spec's (R20, in its order); `events` and `replies` are
the model's own: what the three agents do next, and what the host has read (DESIGN CHOICE: assumptions 1
and 2). -/
structure State where
  /-- C[0..15], scalar registers (R21) -/
  c : Vector Coef 16
  /-- COEF[0..15][0..255], coefficient memory (R23; as arrays of cells, DESIGN CHOICE: assumption 7) -/
  coef : Vector RingElt 16
  /-- TAG[0..15], bit `s` the domain tag of slot `s`, 1 for NTT (R24) -/
  tag : BitVec 16
  /-- KA[0..7], the candidate for a match (R27) -/
  ka : Vector Word 8
  /-- KB[0..7], the candidate for a mismatch (R27) -/
  kb : Vector Word 8
  /-- KOUT[0..7], the selected candidate (R27) -/
  kout : Vector Word 8
  /-- CMPA (R28) -/
  cmpa : Word
  /-- CMPB (R28) -/
  cmpb : Word
  /-- DIFF, hidden (R29) -/
  diff : Word
  /-- PEND, hidden: the issued command not yet completed (R30) -/
  pend : Option Word
  /-- ERR, five sticky bits (R31) -/
  err : BitVec 5
  /-- FADDR (R32) -/
  faddr : BitVec 15
  /-- FDATA (R32) -/
  fdata : Word
  /-- the agents' coming steps, next first; not the block's state (DESIGN CHOICE: assumption 1) -/
  events : List Event
  /-- the values the host's reads have returned, newest first; not the block's state (DESIGN CHOICE: assumption 2) -/
  replies : List Word
  deriving DecidableEq, Repr

/-- R191: the state after reset, every value as the table of that rule gives it; no agent has a step to come and the
host has read nothing. -/
def State.reset : State where
  c := Vector.replicate 16 0#12
  coef := Vector.replicate 16 (Vector.replicate 256 0#12)
  tag := 0#16
  ka := Vector.replicate 8 0#32
  kb := Vector.replicate 8 0#32
  kout := Vector.replicate 8 0#32
  cmpa := 0#32
  cmpb := 0#32
  diff := 0#32
  pend := none
  err := 0#5
  faddr := 0#15
  fdata := 0#32
  events := []
  replies := []

end Sys2Proof.Machine
end

