-- ==== Sys2Proof/Machine/Flags.lean ====
section
/-! DEFINITION. The status bits and the hidden predicate (`10_state.md` rules R29 to R31, R33 and R40; there are no
arithmetic condition codes), and the mask that CSEL makes of that predicate (`43_compare_select.md` rule R153). -/

namespace Sys2Proof.Machine

/-- BUSY: PEND holds a word (R30). -/
def State.busy (s : State) : Bool := s.pend.isSome

/-- FAULT: ERR is not zero (R33). -/
def State.faulted (s : State) : Bool := s.err != 0#5

/-- What STATUS reads: bit 0 BUSY, bit 1 FAULT, the rest 0 (R33). -/
def State.statusWord (s : State) : Word := 0#30 ++ BitVec.ofBool s.faulted ++ BitVec.ofBool s.busy

/-- The number of a cause's bit in ERR (R31, R170). -/
def Cause.bit : Cause → Nat
  | .illcmd => 0
  | .domain => 1
  | .range => 2
  | .busyacc => 3
  | .access => 4

/-- The ERR value with a cause's bit alone (R170). -/
def Cause.mask (x : Cause) : BitVec 5 := 1#5 <<< x.bit

/-- `nz` of R153: bit 31 of `DIFF | (0 - DIFF)`, 1 exactly when DIFF is not zero. -/
def diffNonzero (d : Word) : Bool := (d ||| (0#32 - d)).getLsbD 31

/-- `M` of R153: all ones when DIFF is not zero, else zero. -/
def selectMask (d : Word) : Word := 0#32 - (BitVec.ofBool (diffNonzero d)).setWidth 32

end Sys2Proof.Machine
end

