-- ==== Sys2Proof/Machine/Modular.lean ====
section
/-! DEFINITION. The three scalar functions (`40_scalar_arith.md` rules R100, R102 and R103), the datapaths that
compute them (R101, R102, R103), and the root table (`41_butterfly.md` rules R120 and R121). -/

namespace Sys2Proof.Machine

/-- MM(a, b), the Montgomery product (R100). -/
def mm (a b : Coef) : Coef := BitVec.ofNat 12 ((a.toNat * b.toNat * Config.rInv) % Config.q)

/-- MADDQ(a, b), the modular sum (R102). -/
def maddq (a b : Coef) : Coef := BitVec.ofNat 12 ((a.toNat + b.toNat) % Config.q)

/-- MSUBQ(a, b), the modular difference, its residue taken non-negative (R103). -/
def msubq (a b : Coef) : Coef := BitVec.ofNat 12 (((a.toNat : Int) - b.toNat) % Config.q).toNat

/-- The 24-bit product `T` of the datapath of R101. -/
def mmT (a b : Coef) : BitVec 24 := a.setWidth 24 * b.setWidth 24

/-- The 16-bit multiplier `m` of R101. -/
def mmM (a b : Coef) : BitVec 16 := (mmT a b).setWidth 16 * BitVec.ofNat 16 Config.qp

/-- The 28-bit sum `S` of R101. -/
def mmS (a b : Coef) : BitVec 28 := (mmT a b).setWidth 28 + (mmM a b).setWidth 28 * BitVec.ofNat 28 Config.q

/-- `t = S[27:16]` of R101. -/
def mmQuot (a b : Coef) : BitVec 12 := (mmS a b).extractLsb' 16 12

/-- The output multiplexer of R101, steered by the borrow bit of the 13-bit difference. -/
def mmDatapath (a b : Coef) : Coef :=
  let t := mmQuot a b
  let d : BitVec 13 := t.setWidth 13 - BitVec.ofNat 13 Config.q
  if d[12] then t else d.setWidth 12

/-- The datapath of R102: a 13-bit sum, a 14-bit difference, a multiplexer on its borrow bit. -/
def maddqDatapath (a b : Coef) : Coef :=
  let s : BitVec 13 := a.setWidth 13 + b.setWidth 13
  let d : BitVec 14 := s.setWidth 14 - BitVec.ofNat 14 Config.q
  if d[13] then s.setWidth 12 else d.setWidth 12

/-- The datapath of R103: a 13-bit difference, its correction, a multiplexer on the borrow bit. -/
def msubqDatapath (a b : Coef) : Coef :=
  let d : BitVec 13 := a.setWidth 13 - b.setWidth 13
  let e : BitVec 13 := d + BitVec.ofNat 13 Config.q
  if d[12] then e.setWidth 12 else d.setWidth 12

/-- `brv7(i)`: the 7 bits of `i` in reverse order (R9). -/
def brv7 (i : Nat) : Nat :=
  i % 2 * 64 + i / 2 % 2 * 32 + i / 4 % 2 * 16 + i / 8 % 2 * 8 + i / 16 % 2 * 4 + i / 32 % 2 * 2 + i / 64 % 2

/-- `ZETAP[i] = 17^brv7(i) mod q`, the plain root; not stored (R120). -/
def zetaPlain (i : Nat) : Nat := Config.root ^ brv7 i % Config.q

/-- `GAMMA(i) = 17^(2*brv7(i)+1) mod q`, i = 0 to 127 (R135, R140). -/
def gamma (i : Nat) : Nat := Config.root ^ (2 * brv7 i + 1) % Config.q

/-- The stored table, the 128 values of R121, eight a row as printed there. -/
def zetaTable : List Nat :=
  [2285, 2571, 2970, 1812, 1493, 1422, 287, 202] ++ [3158, 622, 1577, 182, 962, 2127, 1855, 1468]
  ++ [573, 2004, 264, 383, 2500, 1458, 1727, 3199] ++ [2648, 1017, 732, 608, 1787, 411, 3124, 1758]
  ++ [1223, 652, 2777, 1015, 2036, 1491, 3047, 1785] ++ [516, 3321, 3009, 2663, 1711, 2167, 126, 1469]
  ++ [2476, 3239, 3058, 830, 107, 1908, 3082, 2378] ++ [2931, 961, 1821, 2604, 448, 2264, 677, 2054]
  ++ [2226, 430, 555, 843, 2078, 871, 1550, 105] ++ [422, 587, 177, 3094, 3038, 2869, 1574, 1653]
  ++ [3083, 778, 1159, 3182, 2552, 1483, 2727, 1119] ++ [1739, 644, 2457, 349, 418, 329, 3173, 3254]
  ++ [817, 1097, 603, 610, 1322, 2044, 1864, 384] ++ [2114, 3193, 1218, 1994, 2455, 220, 2142, 1670]
  ++ [2144, 1799, 2051, 794, 1819, 2475, 2459, 478] ++ [3221, 3021, 996, 991, 958, 1869, 1522, 1628]

/-- `ZETA[z]`, the stored entry (R26, R121). Used only with `z` below 128. -/
def zeta (z : Nat) : Coef := BitVec.ofNat 12 (zetaTable.getD z 0)

/-- `zbar(z)`: the index whose inverse butterfly undoes the forward butterfly with index `z`, 1 to 127 (R120). -/
def zbar (z : Nat) : Nat := 3 * 2 ^ z.log2 - 1 - z

/-- The forward butterfly of R122 on the pair (low leg, high leg). -/
def bfctPair (z : Nat) (a b : Coef) : Coef × Coef :=
  let t := mm (zeta z) b
  (maddq a t, msubq a t)

/-- The inverse butterfly of R123 on the pair (low leg, high leg). -/
def bfgsPair (z : Nat) (a b : Coef) : Coef × Coef := (maddq a b, mm (zeta z) (msubq b a))

end Sys2Proof.Machine
end

