-- ==== Sys2Proof/Machine/Operands.lean ====
section
/-! DEFINITION. The operand forms: a scalar register, a coefficient, a whole slot, a slot's tag and a root, each with
its read and its write (`00_scope.md` rule R8, `30_encoding.md` rule R72). Every field value names something, no
register is hard-wired and none has an alias (`10_state.md` rules R21, R23). -/

namespace Sys2Proof.Machine

/-- `C[i] <- v` (R8, R21). -/
def State.setC (s : State) (i : CReg) (v : Coef) : State := { s with c := s.c.set i v }

/-- `COEF[p]`, the 256 coefficients of a slot (R23). -/
def State.slot (s : State) (p : Slot) : RingElt := s.coef[p]

/-- `COEF[p] <- f`, all 256 coefficients (R8). -/
def State.setSlot (s : State) (p : Slot) (f : RingElt) : State := { s with coef := s.coef.set p f }

/-- `COEF[p][i]` (R8, R23). -/
def State.coefAt (s : State) (p : Slot) (i : CoefIdx) : Coef := s.coef[p][i]

/-- `COEF[p][i] <- v` (R8, R23). -/
def State.setCoef (s : State) (p : Slot) (i : CoefIdx) (v : Coef) : State :=
  { s with coef := s.coef.set p (s.coef[p].set i v) }

/-- `TAG[p]`, true for the NTT domain (R24). -/
def State.tagOf (s : State) (p : Slot) : Bool := s.tag.getLsbD p

/-- `TAG[p] <- b` (R24). -/
def State.setTag (s : State) (p : Slot) (b : Bool) : State :=
  { s with tag := (s.tag &&& ~~~(1#16 <<< p.val)) ||| ((BitVec.ofBool b).setWidth 16 <<< p.val) }

/-- A command of the array controller writes all of `COEF[pd]` and `TAG[pd]`, and nothing else (R130 (d)). -/
def State.writeSlot (s : State) (pd : Slot) (f : RingElt) (b : Bool) : State := (s.setSlot pd f).setTag pd b

end Sys2Proof.Machine
end

