-- ==== Sys2Proof/Machine/Window.lean ====
section
/-! DEFINITION. The window map (`10_state.md` rule R36): which location an offset names and who may access it. -/

namespace Sys2Proof.Machine

/-- A location of the window (R36). -/
inductive Loc where
  | id
  | cmd
  | status
  | err
  | faddr
  | fdata
  | domtag
  | ka (i : Fin 8)
  | kb (i : Fin 8)
  | kout (i : Fin 8)
  | cmpa
  | cmpb
  | c (i : CReg)
  | zeta (z : RootIdx)
  | coef (s : Slot) (i : CoefIdx)
  deriving DecidableEq, Repr

/-- The location at the offset `o`, a multiple of 4; none where the window is unmapped (R36). -/
def locateAt (o : Nat) : Option Loc :=
  if o = 0x0000 then some .id
  else if o = 0x0004 then some .cmd
  else if o = 0x0008 then some .status
  else if o = 0x000C then some .err
  else if o = 0x0010 then some .faddr
  else if o = 0x0014 then some .fdata
  else if o = 0x0018 then some .domtag
  else if 0x0020 ≤ o ∧ o ≤ 0x003C then some (.ka (Fin.ofNat 8 ((o - 0x0020) / 4)))
  else if 0x0040 ≤ o ∧ o ≤ 0x005C then some (.kb (Fin.ofNat 8 ((o - 0x0040) / 4)))
  else if 0x0060 ≤ o ∧ o ≤ 0x007C then some (.kout (Fin.ofNat 8 ((o - 0x0060) / 4)))
  else if o = 0x0080 then some .cmpa
  else if o = 0x0084 then some .cmpb
  else if 0x0100 ≤ o ∧ o ≤ 0x013C then some (.c (Fin.ofNat 16 ((o - 0x0100) / 4)))
  else if 0x0200 ≤ o ∧ o ≤ 0x03FC then some (.zeta (Fin.ofNat 128 ((o - 0x0200) / 4)))
  else if 0x4000 ≤ o then
    some (.coef (Fin.ofNat 16 ((o - 0x4000) / 0x400)) (Fin.ofNat 256 ((o - 0x4000) % 0x400 / 4)))
  else none

/-- The location at a window offset (R36). -/
def locate (off : Offset) : Option Loc := locateAt off.toNat

/-- The window offset of a location (R36). -/
def Loc.offset : Loc → Nat
  | .id => 0x0000
  | .cmd => 0x0004
  | .status => 0x0008
  | .err => 0x000C
  | .faddr => 0x0010
  | .fdata => 0x0014
  | .domtag => 0x0018
  | .ka i => 0x0020 + 4 * i
  | .kb i => 0x0040 + 4 * i
  | .kout i => 0x0060 + 4 * i
  | .cmpa => 0x0080
  | .cmpb => 0x0084
  | .c i => 0x0100 + 4 * i
  | .zeta z => 0x0200 + 4 * z
  | .coef p i => 0x4000 + 0x400 * p + 4 * i

/-- The host may read the location: it is RO or RW (R36). -/
def Loc.readable : Loc → Bool
  | .cmd => false
  | .ka _ => false
  | .kb _ => false
  | .cmpa => false
  | .cmpb => false
  | .id => true
  | .status => true
  | .err => true
  | .faddr => true
  | .fdata => true
  | .domtag => true
  | .kout _ => true
  | .c _ => true
  | .zeta _ => true
  | .coef _ _ => true

/-- The host may write the location: it is WO or RW (R36). -/
def Loc.writable : Loc → Bool
  | .id => false
  | .status => false
  | .faddr => false
  | .fdata => false
  | .kout _ => false
  | .zeta _ => false
  | .cmd => true
  | .err => true
  | .domtag => true
  | .ka _ => true
  | .kb _ => true
  | .cmpa => true
  | .cmpb => true
  | .c _ => true
  | .coef _ _ => true

/-- The five locations that stay readable while a command is pending: ID, STATUS, ERR, FADDR, FDATA (R51, R175). -/
def Loc.readableWhileBusy : Loc → Bool
  | .id => true
  | .status => true
  | .err => true
  | .faddr => true
  | .fdata => true
  | .cmd => false
  | .domtag => false
  | .ka _ => false
  | .kb _ => false
  | .kout _ => false
  | .cmpa => false
  | .cmpb => false
  | .c _ => false
  | .zeta _ => false
  | .coef _ _ => false

end Sys2Proof.Machine
end

