-- ==== Sys2Proof/Machine/Ops.lean ====
section
/-! DEFINITION. The named operations: raising a fault and acknowledging it (`60_exceptions.md` rules R170 and R179),
the issue of a command (`30_encoding.md` rule R81), reads and writes of the window (`20_memory.md` rules R51, R64 and
R65), and the reset of the block (`70_reset_and_hazards.md` rule R190). -/

namespace Sys2Proof.Machine

/-- `raise Fault(x)` for a transaction at `off` with write data `v` (0 for a read): the capture registers are written
if ERR was zero, the cause's bit is set, and nothing else changes (R170). -/
def State.raise (s : State) (x : Cause) (off : Offset) (v : Word) : State :=
  { s with
    faddr := if s.err = 0#5 then off else s.faddr
    fdata := if s.err = 0#5 then v else s.fdata
    err := s.err ||| x.mask }

/-- The host's acknowledgement, the return from a fault: `ERR <- ERR & ~v[4:0]` (R31, R179). -/
def State.acknowledge (s : State) (v : Word) : State := { s with err := s.err &&& ~~~(v.setWidth 5) }

/-- The operand checks made at issue (R81): the fault a decoded command is refused with, or none. -/
def issueCheck (s : State) : Instr → Option Cause
  | .ldi _ imm => if Config.q ≤ imm.toNat then some .range else none
  | .padd _ pa pb => if s.tagOf pa ≠ s.tagOf pb then some .domain else none
  | .psub _ pa pb => if s.tagOf pa ≠ s.tagOf pb then some .domain else none
  | .pmul _ pa pb => if s.tagOf pa = true ∧ s.tagOf pb = true then none else some .domain
  | .pntt _ pa => if s.tagOf pa ≠ false then some .domain else none
  | .pintt _ pa => if s.tagOf pa ≠ true then some .domain else none
  | .nop => none
  | .zall => none
  | .mmul _ _ _ => none
  | .madd _ _ _ => none
  | .msub _ _ _ => none
  | .bfct _ _ _ => none
  | .bfgs _ _ _ => none
  | .ldc _ _ _ => none
  | .stc _ _ _ => none
  | .pcopy _ _ => none
  | .pzero _ => none
  | .ctclr => none
  | .ctacc => none
  | .csel => none

/-- The issue of the word `w` written to CMD while BUSY = 0 (R81): accepted into PEND, or refused with a fault. -/
def State.issue (s : State) (w : Word) : State :=
  match decode w with
  | .error _ => s.raise .illcmd Config.cmdOffset w
  | .ok i =>
    match issueCheck s i with
    | some x => s.raise x Config.cmdOffset w
    | none => { s with pend := some w }

/-- The value a permitted read returns (R64). The write-only locations, which check 3 of R51 keeps out, give 0
(DESIGN CHOICE: assumption 13). -/
def State.readLoc (s : State) : Loc → Word
  | .id => Config.idValue
  | .status => s.statusWord
  | .err => s.err.setWidth 32
  | .faddr => s.faddr.setWidth 32
  | .fdata => s.fdata
  | .domtag => s.tag.setWidth 32
  | .kout i => s.kout[i]
  | .c i => s.c[i].setWidth 32
  | .zeta z => (Machine.zeta z).setWidth 32
  | .coef p i => (s.coefAt p i).setWidth 32
  | .cmd => 0#32
  | .ka _ => 0#32
  | .kb _ => 0#32
  | .cmpa => 0#32
  | .cmpb => 0#32

/-- The action of a permitted write of `v` at `off` (R65). The read-only locations, which check 3 of R51 keeps out,
do nothing (DESIGN CHOICE: assumption 13). -/
def State.writeLoc (s : State) (off : Offset) (v : Word) : Loc → State
  | .cmd => s.issue v
  | .err => s.acknowledge v
  | .domtag => { s with tag := v.setWidth 16 }
  | .ka i => { s with ka := s.ka.set i v }
  | .kb i => { s with kb := s.kb.set i v }
  | .cmpa => { s with cmpa := v }
  | .cmpb => { s with cmpb := v }
  | .c i => if Config.q ≤ v.toNat then s.raise .range off v else s.setC i (v.setWidth 12)
  | .coef p i => if Config.q ≤ v.toNat then s.raise .range off v else s.setCoef p i (v.setWidth 12)
  | .id => s
  | .status => s
  | .faddr => s
  | .fdata => s
  | .kout _ => s
  | .zeta _ => s

/-- The size of a write in bytes (R50). -/
def WriteData.width : WriteData → Width
  | .byte _ => .one
  | .half _ => .two
  | .word _ => .four

/-- The data of a write, zero-extended to 32 bits (R170). -/
def WriteData.zext : WriteData → Word
  | .byte v => v.setWidth 32
  | .half v => v.setWidth 32
  | .word v => v

/-- Checks 1 to 4 of R51, in their order: size and alignment, mapping, access right, BUSY. -/
def State.checkAccess (s : State) (isWrite : Bool) (off : Offset) (size : Width) : Except Cause Loc :=
  if size ≠ .four ∨ off.extractLsb' 0 2 ≠ 0#2 then .error .access
  else
    match locate off with
    | none => .error .access
    | some l =>
      if (isWrite = true ∧ l.writable = false) ∨ (isWrite = false ∧ l.readable = false) then .error .access
      else if s.busy = true ∧ ¬(isWrite = false ∧ l.readableWhileBusy = true) then .error .busyacc
      else .ok l

/-- `MemWrite(off, size, v)` (R51). -/
def State.hostWrite (s : State) (off : Offset) (data : WriteData) : State :=
  match s.checkAccess true off data.width with
  | .error x => s.raise x off data.zext
  | .ok l => s.writeLoc off data.zext l

/-- `MemRead(off, size)` (R51): the state after, and the value the host gets. -/
def State.hostRead (s : State) (off : Offset) (size : Width) : State × Word :=
  match s.checkAccess false off size with
  | .error x => (s.raise x off 0#32, 0#32)
  | .ok l => (s, s.readLoc l)

/-- One transaction; a read adds the value it returned to the host's record (R50, R51; DESIGN CHOICE:
assumption 2). -/
def State.transact (s : State) : Txn → State
  | .write off data => s.hostWrite off data
  | .read off size =>
    let r := s.hostRead off size
    { r.1 with replies := r.2 :: r.1.replies }

/-- R190: the block takes the reset state, a pending command included; what the agents do next and what the host has
read are not the block's (DEDUCED: assumption 8). -/
def State.resetBlock (s : State) : State := { State.reset with events := s.events, replies := s.replies }

/-- PEND is emptied: BUSY becomes 0 (R82). -/
def State.retire (s : State) : State := { s with pend := none }

/-- An agent's turn is over. -/
def State.withEvents (s : State) (es : List Event) : State := { s with events := es }

end Sys2Proof.Machine
end

