-- ==== Sys2Proof/Machine/Butterfly.lean ====
section
/-! DEFINITION. The butterflies on two scalar registers: BFCT and BFGS (`41_butterfly.md`). -/

namespace Sys2Proof.Machine

/-- BFCT: `t = MM(ZETA[z], C[cb])`, then the sum to `ca` and the difference to `cb`, both from the values before the
step (R122). -/
def execBfct (ca cb : CReg) (z : RootIdx) (s : State) : Host.Outcome State Fault Refusal :=
  let r := bfctPair z s.c[ca] s.c[cb]
  .next ((s.setC ca r.1).setC cb r.2)

/-- BFGS: the sum to `ca`, the root times (high minus low) to `cb`, both from the values before the step (R123). -/
def execBfgs (ca cb : CReg) (z : RootIdx) (s : State) : Host.Outcome State Fault Refusal :=
  let r := bfgsPair z s.c[ca] s.c[cb]
  .next ((s.setC ca r.1).setC cb r.2)

end Sys2Proof.Machine
end

