-- ==== Sys2Proof/Machine/Compare.lean ====
section
/-! DEFINITION. Constant-time compare and select: CTCLR, CTACC and CSEL (`43_compare_select.md`). -/

namespace Sys2Proof.Machine

/-- CTCLR: `DIFF <- 0` (R151). -/
def execCtclr (s : State) : Host.Outcome State Fault Refusal := .next { s with diff := 0#32 }

/-- CTACC: `DIFF <- DIFF | (CMPA ^ CMPB)` (R152). -/
def execCtacc (s : State) : Host.Outcome State Fault Refusal :=
  .next { s with diff := s.diff ||| (s.cmpa ^^^ s.cmpb) }

/-- `KA[i] ^ (M & (KA[i] ^ KB[i]))`, i = 0 to 7 (R153). -/
def selectWords (m : Word) (ka kb : Vector Word 8) : Vector Word 8 :=
  Vector.ofFn fun i => ka[i] ^^^ (m &&& (ka[i] ^^^ kb[i]))

/-- CSEL: KOUT takes KA where DIFF is zero and KB where it is not, by the mask of R153. -/
def execCsel (s : State) : Host.Outcome State Fault Refusal :=
  .next { s with kout := selectWords (selectMask s.diff) s.ka s.kb }

end Sys2Proof.Machine
end

