-- ==== Sys2Proof/Machine/Ring.lean ====
section
/-! DEFINITION. The functions on whole ring elements: sum and difference (`42_polynomial.md` rules R131 and R132), the
forward and inverse transforms (R133, R134) and the pairwise product (R135). Each is written on the list of 256
coefficients, as the rule's loop goes over it, and then taken to the slot's array. -/

namespace Sys2Proof.Machine

/-- The 256 entries of an array, index 0 first; a list of another length (no function below makes one) is cut or
filled with zeros (DESIGN CHOICE: assumption 13). -/
def ofCoefs (l : List Coef) : RingElt :=
  ⟨⟨(l ++ List.replicate 256 0#12).take 256⟩, by
    rw [Array.size, List.length_take, List.length_append, List.length_replicate]; omega⟩

/-- `COEF[pa][i] + COEF[pb][i]`, i = 0 to 255 (R131). -/
def ringAdd (f g : RingElt) : RingElt := ofCoefs (List.zipWith maddq f.toList g.toList)

/-- `COEF[pa][i] - COEF[pb][i]`, i = 0 to 255 (R132). -/
def ringSub (f g : RingElt) : RingElt := ofCoefs (List.zipWith msubq f.toList g.toList)

/-- The zero element (R137). -/
def ringZero : RingElt := Vector.replicate 256 0#12

/-- The blocks of one forward layer (R133): `blocks` blocks of `2 * len` coefficients are left, and the next one uses
root `z`. The inner loop over `j` acts on disjoint pairs, so it is the butterfly on the two halves of the block. -/
def nttBlocks (len : Nat) : (blocks z : Nat) → List Coef → List Coef
  | 0, _, _ => []
  | blocks + 1, z, g =>
    let low := g.take len
    let t := ((g.drop len).take len).map (mm (zeta z))
    List.zipWith maddq low t ++ List.zipWith msubq low t ++ nttBlocks len blocks (z + 1) (g.drop (2 * len))

/-- One layer of the forward transform: 128/len blocks, whose roots count up from 128/len (R133, R139). -/
def nttLayer (len : Nat) (g : List Coef) : List Coef := nttBlocks len (128 / len) (128 / len) g

/-- `NTT(f)` of R133: the layers len = 128, 64, 32, 16, 8, 4, 2. -/
def ntt (f : RingElt) : RingElt := ofCoefs ([128, 64, 32, 16, 8, 4, 2].foldl (fun g len => nttLayer len g) f.toList)

/-- The blocks of one inverse layer (R134): `blocks` blocks are left, and the next one uses root `z`, counting down. -/
def inttBlocks (len : Nat) : (blocks z : Nat) → List Coef → List Coef
  | 0, _, _ => []
  | blocks + 1, z, f =>
    let low := f.take len
    let high := (f.drop len).take len
    List.zipWith maddq low high ++ List.zipWith (fun t h => mm (zeta z) (msubq h t)) low high
      ++ inttBlocks len blocks (z - 1) (f.drop (2 * len))

/-- One layer of the inverse transform: 128/len blocks, whose roots count down from 256/len - 1 (R134, R139). -/
def inttLayer (len : Nat) (f : List Coef) : List Coef := inttBlocks len (128 / len) (256 / len - 1) f

/-- `INTT(g)` of R134: the layers len = 2, 4, 8, 16, 32, 64, 128, then the scaling by 128^-1. -/
def intt (g : RingElt) : RingElt :=
  ofCoefs (([2, 4, 8, 16, 32, 64, 128].foldl (fun f len => inttLayer len f) g.toList).map
    fun v => mm v (BitVec.ofNat 12 Config.scale))

/-- The inner three lines of R133's loop, in place on the array `g`: the butterfly on `(g[j], g[j+len])`. -/
def nttStep (z len j : Nat) (g : List Coef) : List Coef :=
  let t := mm (zeta z) (g.getD (j + len) 0#12)
  (g.set (j + len) (msubq (g.getD j 0#12) t)).set j (maddq (g.getD j 0#12) t)

/-- R133's loop as it is printed, with its running `k` and its in-place writes. `ntt` is the same function by whole
blocks; this form is what statements hold it against. -/
def nttLoop (f : List Coef) : List Coef :=
  ([128, 64, 32, 16, 8, 4, 2].foldl (fun (gk : List Coef × Nat) len =>
    (List.range (128 / len)).foldl (fun gk b =>
      ((List.range len).foldl (fun g i => nttStep gk.2 len (2 * len * b + i) g) gk.1, gk.2 + 1)) gk) (f, 1)).1

/-- The inner three lines of R134's loop, in place on the array `f`. -/
def inttStep (z len j : Nat) (f : List Coef) : List Coef :=
  let t := f.getD j 0#12
  (f.set j (maddq t (f.getD (j + len) 0#12))).set (j + len) (mm (zeta z) (msubq (f.getD (j + len) 0#12) t))

/-- R134's loop as it is printed, with its running `k` and its in-place writes, and the final scaling. -/
def inttLoop (g : List Coef) : List Coef :=
  ([2, 4, 8, 16, 32, 64, 128].foldl (fun (fk : List Coef × Nat) len =>
    (List.range (128 / len)).foldl (fun fk b =>
      ((List.range len).foldl (fun f i => inttStep fk.2 len (2 * len * b + i) f) fk.1, fk.2 - 1)) fk) (g, 127)).1.map
    fun v => mm v (BitVec.ofNat 12 Config.scale)

/-- The two coefficients of pair `i` of the product (R135): `(a0 + a1 x)(b0 + b1 x) mod (x^2 - GAMMA(i))`. -/
def pairProduct (i : Nat) (a0 a1 b0 b1 : Coef) : Coef × Coef :=
  (BitVec.ofNat 12 ((a0.toNat * b0.toNat + a1.toNat * b1.toNat * gamma i) % Config.q),
   BitVec.ofNat 12 ((a0.toNat * b1.toNat + a1.toNat * b0.toNat) % Config.q))

/-- The pairs of R135 from pair `i` on. -/
def pairProducts : (i : Nat) → List Coef → List Coef → List Coef
  | i, a0 :: a1 :: f, b0 :: b1 :: g =>
    (pairProduct i a0 a1 b0 b1).1 :: (pairProduct i a0 a1 b0 b1).2 :: pairProducts (i + 1) f g
  | _, _, _ => []

/-- `BASEMUL(f, g)` of R135. -/
def baseMul (f g : RingElt) : RingElt := ofCoefs (pairProducts 0 f.toList g.toList)

/-- Pair `i` of the product by the units of the block, the sequence of Montgomery products that R135 gives. -/
def pairProductDatapath (i : Nat) (a0 a1 b0 b1 : Coef) : Coef × Coef :=
  let u := mm (mm a1 b1) (zeta (64 + i / 2))
  let u := if i % 2 = 1 then msubq 0#12 u else u
  (mm (maddq (mm a0 b0) u) (BitVec.ofNat 12 Config.r2),
   mm (maddq (mm a0 b1) (mm a1 b0)) (BitVec.ofNat 12 Config.r2))

end Sys2Proof.Machine
end

