-- ==== Sys2Proof/Machine/Polynomial.lean ====
section
/-! DEFINITION. The commands of the array controller: PADD, PSUB, PMUL, PNTT, PINTT, PCOPY and PZERO
(`42_polynomial.md`). Their tag checks are made at issue (`issueCheck`; DEDUCED: assumption 5); each result is a function of the sources
before the step, so operands may coincide in any way (R130). -/

namespace Sys2Proof.Machine

/-- PADD: the coefficient-wise sum, `TAG[pd] <- TAG[pa]` (R131). -/
def execPadd (pd pa pb : Slot) (s : State) : Host.Outcome State Fault Refusal :=
  .next (s.writeSlot pd (ringAdd (s.slot pa) (s.slot pb)) (s.tagOf pa))

/-- PSUB: the coefficient-wise difference, `TAG[pd] <- TAG[pa]` (R132). -/
def execPsub (pd pa pb : Slot) (s : State) : Host.Outcome State Fault Refusal :=
  .next (s.writeSlot pd (ringSub (s.slot pa) (s.slot pb)) (s.tagOf pa))

/-- PMUL: the pairwise product, `TAG[pd] <- 1` (R135). -/
def execPmul (pd pa pb : Slot) (s : State) : Host.Outcome State Fault Refusal :=
  .next (s.writeSlot pd (baseMul (s.slot pa) (s.slot pb)) true)

/-- PNTT: the forward transform, `TAG[pd] <- 1` (R133). -/
def execPntt (pd pa : Slot) (s : State) : Host.Outcome State Fault Refusal :=
  .next (s.writeSlot pd (ntt (s.slot pa)) true)

/-- PINTT: the inverse transform, scaling included, `TAG[pd] <- 0` (R134). -/
def execPintt (pd pa : Slot) (s : State) : Host.Outcome State Fault Refusal :=
  .next (s.writeSlot pd (intt (s.slot pa)) false)

/-- PCOPY: all coefficients and the tag of `pa` (R136). -/
def execPcopy (pd pa : Slot) (s : State) : Host.Outcome State Fault Refusal :=
  .next (s.writeSlot pd (s.slot pa) (s.tagOf pa))

/-- PZERO: all coefficients 0, `TAG[pd] <- 0` (R137). -/
def execPzero (pd : Slot) (s : State) : Host.Outcome State Fault Refusal :=
  .next (s.writeSlot pd ringZero false)

end Sys2Proof.Machine
end

