-- ==== Sys2Proof/Machine/Scalar.lean ====
section
/-! DEFINITION. Single-coefficient commands: MMUL, MADD, MSUB, LDI, LDC and STC (`40_scalar_arith.md`). -/

namespace Sys2Proof.Machine

/-- MMUL: `C[cd] <- MM(C[ca], C[cb])` (R104). -/
def execMmul (cd ca cb : CReg) (s : State) : Host.Outcome State Fault Refusal :=
  .next (s.setC cd (mm s.c[ca] s.c[cb]))

/-- MADD: `C[cd] <- MADDQ(C[ca], C[cb])` (R105). -/
def execMadd (cd ca cb : CReg) (s : State) : Host.Outcome State Fault Refusal :=
  .next (s.setC cd (maddq s.c[ca] s.c[cb]))

/-- MSUB: `C[cd] <- MSUBQ(C[ca], C[cb])` (R106). -/
def execMsub (cd ca cb : CReg) (s : State) : Host.Outcome State Fault Refusal :=
  .next (s.setC cd (msubq s.c[ca] s.c[cb]))

/-- LDI: `C[cd] <- imm` (R107). An immediate of 3329 or more never gets here: R81 refuses it at issue
(DEDUCED: assumption 5). -/
def execLdi (cd : CReg) (imm : BitVec 12) (s : State) : Host.Outcome State Fault Refusal := .next (s.setC cd imm)

/-- LDC: `C[c] <- COEF[p][idx]`; the tag of the slot is not checked (R108). -/
def execLdc (c : CReg) (p : Slot) (idx : CoefIdx) (s : State) : Host.Outcome State Fault Refusal :=
  .next (s.setC c (s.coefAt p idx))

/-- STC: `COEF[p][idx] <- C[c]`; the tag of the slot is unchanged (R109). -/
def execStc (c : CReg) (p : Slot) (idx : CoefIdx) (s : State) : Host.Outcome State Fault Refusal :=
  .next (s.setCoef p idx s.c[c])

end Sys2Proof.Machine
end

