-- ==== Sys2Proof/Machine/System.lean ====
section
/-! DEFINITION. Housekeeping: NOP and ZALL (`44_system.md`). -/

namespace Sys2Proof.Machine

/-- NOP: nothing is written (R160). -/
def execNop (s : State) : Host.Outcome State Fault Refusal := .next s

/-- ZALL: every secret-bearing register to 0; ERR and FADDR are kept (R161). -/
def execZall (s : State) : Host.Outcome State Fault Refusal :=
  .next { s with
    coef := Vector.replicate 16 ringZero
    tag := 0#16
    c := Vector.replicate 16 0#12
    ka := Vector.replicate 8 0#32
    kb := Vector.replicate 8 0#32
    kout := Vector.replicate 8 0#32
    cmpa := 0#32
    cmpb := 0#32
    diff := 0#32
    fdata := 0#32 }

end Sys2Proof.Machine
end

