-- ==== Sys2Proof/Machine/Dispatch.lean ====
section
/-! DEFINITION. One arm per command: its effect at completion (`30_encoding.md` rule R82). -/

namespace Sys2Proof.Machine

def exec (i : Instr) (s : State) : Host.Outcome State Fault Refusal :=
  match i with
  | .nop => Sys2Proof.Machine.execNop s
  | .zall => Sys2Proof.Machine.execZall s
  | .mmul cd ca cb => Sys2Proof.Machine.execMmul cd ca cb s
  | .madd cd ca cb => Sys2Proof.Machine.execMadd cd ca cb s
  | .msub cd ca cb => Sys2Proof.Machine.execMsub cd ca cb s
  | .bfct ca cb z => Sys2Proof.Machine.execBfct ca cb z s
  | .bfgs ca cb z => Sys2Proof.Machine.execBfgs ca cb z s
  | .ldi cd imm => Sys2Proof.Machine.execLdi cd imm s
  | .ldc c p idx => Sys2Proof.Machine.execLdc c p idx s
  | .stc c p idx => Sys2Proof.Machine.execStc c p idx s
  | .padd pd pa pb => Sys2Proof.Machine.execPadd pd pa pb s
  | .psub pd pa pb => Sys2Proof.Machine.execPsub pd pa pb s
  | .pmul pd pa pb => Sys2Proof.Machine.execPmul pd pa pb s
  | .pntt pd pa => Sys2Proof.Machine.execPntt pd pa s
  | .pintt pd pa => Sys2Proof.Machine.execPintt pd pa s
  | .pcopy pd pa => Sys2Proof.Machine.execPcopy pd pa s
  | .pzero pd => Sys2Proof.Machine.execPzero pd s
  | .ctclr => Sys2Proof.Machine.execCtclr s
  | .ctacc => Sys2Proof.Machine.execCtacc s
  | .csel => Sys2Proof.Machine.execCsel s

end Sys2Proof.Machine
end

