-- ==== Sys2Proof/Machine/Engine.lean ====
section
/-! DEFINITION. The engine's one step, completion (`30_encoding.md` rule R82), and one step of whichever agent has its
turn (`00_scope.md` rule R6). -/

namespace Sys2Proof.Machine

/-- Completion (R82): with a command pending, PEND is emptied and the command has its effect; with none pending the
step is not enabled and nothing happens. No command reads or writes PEND, so emptying it first is the same as
emptying it together with the command's writes (DEDUCED: assumption 14). -/
def complete (s : State) : Host.Outcome State Fault Refusal :=
  match s.pend with
  | none => .next s
  | some w =>
    match decode w with
    | .ok i => exec i s.retire
    | .error _ => .fault (.illegalPending w)

/-- One step of one agent (R6). -/
def act (e : Event) (s : State) : Host.Outcome State Fault Refusal :=
  match e with
  | .host t => .next (s.transact t)
  | .engine => complete s
  | .reset => .next s.resetBlock

/-- The commands of a list, each completing before the next (R79's EXEC, with nothing between them; DESIGN CHOICE: assumption 12). -/
def execAll : List Instr → State → Host.Outcome State Fault Refusal
  | [], s => .next s
  | i :: is, s =>
    match exec i s with
    | .next t => execAll is t
    | .fault r => .fault r
    | .refused r => .refused r

end Sys2Proof.Machine
end

