-- ==== Sys2Proof/Machine/Step.lean ====
section
/-! DEFINITION. The machine's step: the next of the agents' coming steps, or, when none is left, the engine's, which is
enabled while BUSY = 1 and is taken in the end (`70_reset_and_hazards.md` rule R197). -/

namespace Sys2Proof.Machine

/-- One step (R6). With no event left the engine completes a pending command; with none pending either, nothing
changes (DESIGN CHOICE: assumption 3). -/
def step (s : State) : Host.Outcome State Fault Refusal :=
  match s.events with
  | [] => complete s
  | e :: es => act e (s.withEvents es)

/-- `s` with the command word `w` pending and the engine's turn next (R30, R82): the block fetches nothing, and PEND is
where its next command stands (DESIGN CHOICE: assumption 6). -/
def State.withFetchWord (s : State) (_nbits w : Nat) : State :=
  { s with pend := some (BitVec.ofNat 32 w), events := .engine :: s.events }

end Sys2Proof.Machine
end

