-- ==== Sys2Proof/Safety.lean ====
section
/-! DEFINITION. The terms claims use: the range invariant (`10_state.md` rule R25), what PEND may hold
(`30_encoding.md` rule R81), their conjunction, which every step keeps; what a command leaves unchanged; the offsets of
the window map (`10_state.md` rule R36) as numbers; and two states that differ in DIFF alone. -/

namespace Sys2Proof.Machine

/-! ### The invariant -/

/-- A coefficient is canonical: in [0, q) (R25). -/
def Canonical (v : Coef) : Prop := v.toNat < 3329

/-- All coefficients of a ring element are canonical. -/
def CanonicalElt (f : RingElt) : Prop := ∀ i : CoefIdx, Canonical f[i]

/-- R25: every C[i] and every COEF[s][i] is in [0, 3328]. -/
def State.InRange (s : State) : Prop := (∀ r : CReg, Canonical s.c[r]) ∧ ∀ p : Slot, CanonicalElt (s.slot p)

/-- R81: a pending word decodes to a command whose checks at issue hold. -/
def State.PendAccepted (s : State) : Prop :=
  ∀ w, s.pend = some w → ∃ i, decode w = .ok i ∧ issueCheck s i = none

/-- The invariant that every step keeps. -/
structure State.Inv (s : State) : Prop where
  inRange : s.InRange
  pendAccepted : s.PendAccepted

/-! ### Frames -/

/-- From `s` to `t` nothing changes but the scalar registers listed. -/
def OnlyScalars (rs : List CReg) (s t : State) : Prop :=
  t = { s with c := t.c } ∧ ∀ r, r ∉ rs → t.c[r] = s.c[r]

/-- From `s` to `t` nothing changes but the coefficients and the tag of slot `pd`. -/
def OnlySlot (pd : Slot) (s t : State) : Prop :=
  t = { s with coef := t.coef, tag := t.tag } ∧ ∀ p, p ≠ pd → t.slot p = s.slot p ∧ t.tagOf p = s.tagOf p

/-- From `s` to `t` nothing changes but coefficient `idx` of slot `p`. -/
def OnlyCoef (p : Slot) (idx : CoefIdx) (s t : State) : Prop :=
  t = { s with coef := t.coef } ∧ ∀ p' i, (p', i) ≠ (p, idx) → t.coefAt p' i = s.coefAt p' i

/-! ### Words of the host's and of the assembler -/

/-- An operand in its place: `x << pos` (R78). -/
def field (x pos : Nat) : Word := BitVec.ofNat 32 x <<< pos

/-- A word with opcode `op` is a command exactly when its must-be-zero bits are 0 (R71, R75). -/
def LegalWhenZero (op : BitVec 8) (mbz : Word) : Prop :=
  ∀ w, opcodeOf w = op → ((∃ i, decode w = .ok i) ↔ w &&& mbz = 0#32)

/-- A 4-byte write of `w` to CMD (R35). -/
def State.writeCmd (s : State) (w : Word) : State := s.hostWrite 0x0004#15 (.word w)

/-! ### The window map by numbers (R36, R176) -/

/-- The offset is a multiple of 4 outside the window map. -/
def Unmapped (o : Nat) : Prop :=
  o = 0x001C ∨ (0x0088 ≤ o ∧ o ≤ 0x00FC) ∨ (0x0140 ≤ o ∧ o ≤ 0x01FC) ∨ (0x0400 ≤ o ∧ o ≤ 0x3FFC)

/-- ID, STATUS, FADDR, FDATA, KOUT or ZETA. -/
def ReadOnly (o : Nat) : Prop :=
  o = 0x0000 ∨ o = 0x0008 ∨ o = 0x0010 ∨ o = 0x0014 ∨ (0x0060 ≤ o ∧ o ≤ 0x007C) ∨ (0x0200 ≤ o ∧ o ≤ 0x03FC)

/-- CMD, KA, KB, CMPA or CMPB. -/
def WriteOnly (o : Nat) : Prop := o = 0x0004 ∨ (0x0020 ≤ o ∧ o ≤ 0x005C) ∨ o = 0x0080 ∨ o = 0x0084

/-- ID, STATUS, ERR, FADDR or FDATA, the locations readable while BUSY = 1 (R175). -/
def StatusOffset (o : Nat) : Prop := o = 0x0000 ∨ o = 0x0008 ∨ o = 0x000C ∨ o = 0x0010 ∨ o = 0x0014

/-! ### What the next step is, and what DIFF may tell -/

/-- The next step completes the command `i`. -/
def State.Completes (s : State) (i : Instr) : Prop :=
  (s.events = [] ∨ s.events.head? = some .engine) ∧ ∃ w, s.pend = some w ∧ decode w = .ok i

/-- The next step is the external reset. -/
def State.Resets (s : State) : Prop := s.events.head? = some .reset

/-- The next step is a host transaction. -/
def State.Hosts (s : State) (t : Txn) : Prop := s.events.head? = some (.host t)

/-- The two states are equal but for DIFF. -/
def AgreeButDiff (s t : State) : Prop := { s with diff := 0#32 } = { t with diff := 0#32 }

/-- One pair of words is written to CMPA and CMPB and accumulated (CMPW of R79; DESIGN CHOICE: assumption 12). -/
def State.present (s : State) (p : Word × Word) : Host.Outcome State Fault Refusal :=
  exec .ctacc { s with cmpa := p.1, cmpb := p.2 }

/-- The pairs are presented one after the other. -/
def presentAll : List (Word × Word) → State → Host.Outcome State Fault Refusal
  | [], s => .next s
  | p :: ps, s =>
    match s.present p with
    | .next t => presentAll ps t
    | .fault r => .fault r
    | .refused r => .refused r

end Sys2Proof.Machine
end

