-- ==== Sys2Proof/Certificates/Slice0/Obligations.lean ====
section
/-! DEFINITION. The statements for the provers, in the order of the spec's files: encoding and the life of a command
(`30_encoding.md`), the commands, the arithmetic and transform laws, the window and its faults, reset, and the rules
that hold of every step. -/

open Sys2Proof Sys2Proof.Machine

/-! ### Encoding -/

/-- R80 with R71 and R74: every well-formed command is what its own word decodes to, at every value of every field. -/
def Obligations.EncodeThenDecodeGivesTheCommand : Prop := ∀ i : Instr, i.WellFormed → decode (encode i) = .ok i

/-- R80: a word decodes to at most one command, and that command is well-formed and has this word and no other. -/
def Obligations.DecodedWordIsTheWordOfItsCommand : Prop :=
  ∀ w i, decode w = .ok i → encode i = w ∧ i.WellFormed

/-- R80: the row of the opcode, then the mask, then the legs of a butterfly decide; else the mnemonic of the row with
the fields that its word carries. -/
def Obligations.DecodeFollowsRowThenMaskThenLegs : Prop :=
  (∀ w, (∀ r ∈ opcodeTable, opcodeOf r.2.1 ≠ opcodeOf w) → ∃ e, decode w = .error e) ∧
  ∀ r ∈ opcodeTable, ∀ w, opcodeOf w = opcodeOf r.2.1 →
    (w &&& r.2.2 ≠ r.2.1 → ∃ e, decode w = .error e) ∧
    (w &&& r.2.2 = r.2.1 → (r.1 = "BFCT" ∨ r.1 = "BFGS") → w.extractLsb' 20 4 = w.extractLsb' 16 4 →
      ∃ e, decode w = .error e) ∧
    (w &&& r.2.2 = r.2.1 → ((r.1 = "BFCT" ∨ r.1 = "BFGS") → w.extractLsb' 20 4 ≠ w.extractLsb' 16 4) →
      ∃ i, decode w = .ok i ∧ i.mnemonic = r.1 ∧ encode i = w)

/-- R75 and R172: what makes a word illegal, and that writing one to CMD raises ILLCMD and starts nothing. -/
def Obligations.IllegalWordsAreRefused : Prop :=
  ∀ w : Word,
    ((∃ e, decode w = .error e) ↔
      (opcodeOf w ∉ [0x00#8, 0x01#8, 0x10#8, 0x11#8, 0x12#8, 0x13#8, 0x14#8, 0x15#8, 0x16#8, 0x17#8, 0x20#8, 0x21#8,
        0x22#8, 0x23#8, 0x24#8, 0x25#8, 0x26#8, 0x30#8, 0x31#8, 0x32#8]) ∨
      (∃ r ∈ opcodeTable, opcodeOf w = opcodeOf r.2.1 ∧ w &&& r.2.2 ≠ r.2.1) ∨
      ((opcodeOf w = 0x13#8 ∨ opcodeOf w = 0x14#8) ∧ w.extractLsb' 20 4 = w.extractLsb' 16 4)) ∧
    ∀ s : State, (∃ e, decode w = .error e) → s.pend = none → s.writeCmd w = s.raise .illcmd 0x0004#15 w

/-- Words written out from the formats of R71 decode to the commands of R78's examples: one of every format. -/
def Obligations.HandWrittenWordsDecode : Prop :=
  decode 0x32000000#32 = .ok .csel ∧ decode 0x10312000#32 = .ok (.mmul 3 1 2) ∧
  decode 0x13014000#32 = .ok (.bfct 0 1 64) ∧ decode 0x15200549#32 = .ok (.ldi 2 1353#12) ∧
  decode 0x16521100#32 = .ok (.ldc 5 2 17) ∧ decode 0x20312000#32 = .ok (.padd 3 1 2) ∧
  decode 0x23100000#32 = .ok (.pntt 1 0) ∧ decode 0x26900000#32 = .ok (.pzero 9)

/-- R81: a word written to CMD while no command is pending is refused by the one test it fails, or fills PEND and
changes nothing else. -/
def Obligations.IssueAcceptsUnlessATestFails : Prop :=
  ∀ (s : State) (w : Word), s.pend = none →
    (∀ e, decode w = .error e → s.writeCmd w = s.raise .illcmd 0x0004#15 w) ∧
    (∀ cd imm, decode w = .ok (.ldi cd imm) → 3329 ≤ imm.toNat → s.writeCmd w = s.raise .range 0x0004#15 w) ∧
    (∀ pd pa pb, decode w = .ok (.padd pd pa pb) ∨ decode w = .ok (.psub pd pa pb) → s.tagOf pa ≠ s.tagOf pb →
      s.writeCmd w = s.raise .domain 0x0004#15 w) ∧
    (∀ pd pa pb, decode w = .ok (.pmul pd pa pb) → ¬(s.tagOf pa = true ∧ s.tagOf pb = true) →
      s.writeCmd w = s.raise .domain 0x0004#15 w) ∧
    (∀ pd pa, decode w = .ok (.pntt pd pa) → s.tagOf pa = true → s.writeCmd w = s.raise .domain 0x0004#15 w) ∧
    (∀ pd pa, decode w = .ok (.pintt pd pa) → s.tagOf pa = false → s.writeCmd w = s.raise .domain 0x0004#15 w) ∧
    (∀ i, decode w = .ok i →
      (∀ cd imm, i = .ldi cd imm → imm.toNat < 3329) →
      (∀ pd pa pb, i = .padd pd pa pb ∨ i = .psub pd pa pb → s.tagOf pa = s.tagOf pb) →
      (∀ pd pa pb, i = .pmul pd pa pb → s.tagOf pa = true ∧ s.tagOf pb = true) →
      (∀ pd pa, i = .pntt pd pa → s.tagOf pa = false) →
      (∀ pd pa, i = .pintt pd pa → s.tagOf pa = true) →
      s.writeCmd w = { s with pend := some w })

/-- R82 with R6: the engine's step on a pending command is `exec` of the decoded command with PEND emptied; it is the
engine's turn when its event is next, or (assumption 3) when no event is left. -/
def Obligations.EngineStepRunsThePendingCommand : Prop :=
  ∀ (s : State) (w : Word) (i : Instr), s.pend = some w → decode w = .ok i →
    (∀ es, s.events = .engine :: es → step s = exec i { s with pend := none, events := es }) ∧
    (s.events = [] → step s = exec i { s with pend := none })

/-- R6: a host event is one transaction, a read's value going to the host's record (assumption 2); with nothing pending
the engine's turn changes nothing, and with no event left either the machine stands still (assumption 3). -/
def Obligations.HostAndIdleSteps : Prop :=
  ∀ s : State,
    (∀ off d es, s.events = .host (.write off d) :: es →
      step s = .next ({ s with events := es }.hostWrite off d)) ∧
    (∀ off size es, s.events = .host (.read off size) :: es →
      ∃ t, step s = .next t ∧ t.replies = ({ s with events := es }.hostRead off size).2 :: s.replies ∧
        t = { ({ s with events := es }.hostRead off size).1 with replies := t.replies }) ∧
    (∀ es, s.pend = none → s.events = .engine :: es → step s = .next { s with events := es }) ∧
    (s.pend = none → s.events = [] → step s = .next s)

/-! ### The commands -/

/-- R104. -/
def Obligations.MmulStoresTheMontgomeryProduct : Prop :=
  LegalWhenZero 0x10#8 0x00000FFF#32 ∧
  ∀ cd ca cb : CReg,
    encode (.mmul cd ca cb) = 0x10000000#32 ||| field cd 20 ||| field ca 16 ||| field cb 12 ∧
    ∀ s : State, ∃ t, exec (.mmul cd ca cb) s = .next t ∧ OnlyScalars [cd] s t ∧
      t.c[cd].toNat = s.c[ca].toNat * s.c[cb].toNat * 169 % 3329

/-- R105. -/
def Obligations.MaddStoresTheModularSum : Prop :=
  LegalWhenZero 0x11#8 0x00000FFF#32 ∧
  ∀ cd ca cb : CReg,
    encode (.madd cd ca cb) = 0x11000000#32 ||| field cd 20 ||| field ca 16 ||| field cb 12 ∧
    ∀ s : State, ∃ t, exec (.madd cd ca cb) s = .next t ∧ OnlyScalars [cd] s t ∧
      t.c[cd].toNat = (s.c[ca].toNat + s.c[cb].toNat) % 3329

/-- R106: `ca` minus `cb`, the non-negative residue. -/
def Obligations.MsubStoresTheModularDifference : Prop :=
  LegalWhenZero 0x12#8 0x00000FFF#32 ∧
  ∀ cd ca cb : CReg,
    encode (.msub cd ca cb) = 0x12000000#32 ||| field cd 20 ||| field ca 16 ||| field cb 12 ∧
    ∀ s : State, ∃ t, exec (.msub cd ca cb) s = .next t ∧ OnlyScalars [cd] s t ∧
      (t.c[cd].toNat : Int) = ((s.c[ca].toNat : Int) - s.c[cb].toNat) % 3329

/-- R107: the immediate is stored; one of 3329 or more is refused at issue with RANGE, the register unchanged. The clause
about `exec` holds for every immediate: that it completes for one of 3329 or more, which issue lets no run complete, is
the model's choice (assumption 5, DEDUCED). -/
def Obligations.LdiLoadsTheImmediate : Prop :=
  LegalWhenZero 0x15#8 0x000FF000#32 ∧
  ∀ (cd : CReg) (imm : BitVec 12),
    encode (.ldi cd imm) = 0x15000000#32 ||| field cd 20 ||| field imm.toNat 0 ∧
    (∀ s : State, ∃ t, exec (.ldi cd imm) s = .next t ∧ OnlyScalars [cd] s t ∧ t.c[cd] = imm) ∧
    ∀ s : State, s.pend = none →
      s.writeCmd (encode (.ldi cd imm)) =
        if imm.toNat < 3329 then { s with pend := some (encode (.ldi cd imm)) }
        else s.raise .range 0x0004#15 (encode (.ldi cd imm))

/-- R108: a coefficient into a scalar register, whatever the tag. -/
def Obligations.LdcLoadsTheCoefficient : Prop :=
  LegalWhenZero 0x16#8 0x000000FF#32 ∧
  ∀ (c : CReg) (p : Slot) (idx : CoefIdx),
    encode (.ldc c p idx) = 0x16000000#32 ||| field c 20 ||| field p 16 ||| field idx 8 ∧
    (∀ s : State, ∃ t, exec (.ldc c p idx) s = .next t ∧ OnlyScalars [c] s t ∧ t.c[c] = s.coefAt p idx) ∧
    ∀ s : State, s.pend = none → s.writeCmd (encode (.ldc c p idx)) = { s with pend := some (encode (.ldc c p idx)) }

/-- R109: a scalar register into a coefficient; the tag and the other coefficients are unchanged. -/
def Obligations.StcStoresTheCoefficient : Prop :=
  LegalWhenZero 0x17#8 0x000000FF#32 ∧
  ∀ (c : CReg) (p : Slot) (idx : CoefIdx),
    encode (.stc c p idx) = 0x17000000#32 ||| field c 20 ||| field p 16 ||| field idx 8 ∧
    (∀ s : State, ∃ t, exec (.stc c p idx) s = .next t ∧ OnlyCoef p idx s t ∧ t.coefAt p idx = s.c[c]) ∧
    ∀ s : State, s.pend = none → s.writeCmd (encode (.stc c p idx)) = { s with pend := some (encode (.stc c p idx)) }

/-- R122: `a + ZETAP[z]*b` to the low leg and `a - ZETAP[z]*b` to the high leg, both of the values before the step;
equal legs are no encoding. -/
def Obligations.BfctStoresTheForwardButterfly : Prop :=
  (∀ w, opcodeOf w = 0x13#8 →
    ((∃ i, decode w = .ok i) ↔ w &&& 0x000080FF#32 = 0#32 ∧ w.extractLsb' 20 4 ≠ w.extractLsb' 16 4)) ∧
  ∀ (ca cb : CReg) (z : RootIdx),
    encode (.bfct ca cb z) = 0x13000000#32 ||| field ca 20 ||| field cb 16 ||| field z 8 ∧
    ∀ s : State, ca ≠ cb → ∃ t, exec (.bfct ca cb z) s = .next t ∧ OnlyScalars [ca, cb] s t ∧
      t.c[ca].toNat = (s.c[ca].toNat + 17 ^ brv7 z * s.c[cb].toNat) % 3329 ∧
      (t.c[cb].toNat : Int) = ((s.c[ca].toNat : Int) - 17 ^ brv7 z * s.c[cb].toNat) % 3329

/-- R123: `a + b` to the low leg and `ZETAP[z]*(b - a)` to the high leg, both of the values before the step; equal legs
are no encoding. -/
def Obligations.BfgsStoresTheInverseButterfly : Prop :=
  (∀ w, opcodeOf w = 0x14#8 →
    ((∃ i, decode w = .ok i) ↔ w &&& 0x000080FF#32 = 0#32 ∧ w.extractLsb' 20 4 ≠ w.extractLsb' 16 4)) ∧
  ∀ (ca cb : CReg) (z : RootIdx),
    encode (.bfgs ca cb z) = 0x14000000#32 ||| field ca 20 ||| field cb 16 ||| field z 8 ∧
    ∀ s : State, ca ≠ cb → ∃ t, exec (.bfgs ca cb z) s = .next t ∧ OnlyScalars [ca, cb] s t ∧
      t.c[ca].toNat = (s.c[ca].toNat + s.c[cb].toNat) % 3329 ∧
      (t.c[cb].toNat : Int) = 17 ^ brv7 z * ((s.c[cb].toNat : Int) - s.c[ca].toNat) % 3329

/-- R131: the coefficient-wise sum with the sources' tag; sources of different domains are refused at issue. That `exec`
completes, with the tag of `pa`, on such sources too is the model's choice (assumption 5, DEDUCED). -/
def Obligations.PaddStoresTheRingSum : Prop :=
  LegalWhenZero 0x20#8 0x00000FFF#32 ∧
  ∀ pd pa pb : Slot,
    encode (.padd pd pa pb) = 0x20000000#32 ||| field pd 20 ||| field pa 16 ||| field pb 12 ∧
    (∀ s : State, ∃ t, exec (.padd pd pa pb) s = .next t ∧ OnlySlot pd s t ∧ t.tagOf pd = s.tagOf pa ∧
      ∀ i : CoefIdx, (t.coefAt pd i).toNat = ((s.coefAt pa i).toNat + (s.coefAt pb i).toNat) % 3329) ∧
    ∀ s : State, s.pend = none →
      s.writeCmd (encode (.padd pd pa pb)) =
        if s.tagOf pa = s.tagOf pb then { s with pend := some (encode (.padd pd pa pb)) }
        else s.raise .domain 0x0004#15 (encode (.padd pd pa pb))

/-- R132: the coefficient-wise difference `pa` minus `pb` with the sources' tag; sources of different domains are refused
at issue. That `exec` completes, with the tag of `pa`, on such sources too is the model's choice (assumption 5,
DEDUCED). -/
def Obligations.PsubStoresTheRingDifference : Prop :=
  LegalWhenZero 0x21#8 0x00000FFF#32 ∧
  ∀ pd pa pb : Slot,
    encode (.psub pd pa pb) = 0x21000000#32 ||| field pd 20 ||| field pa 16 ||| field pb 12 ∧
    (∀ s : State, ∃ t, exec (.psub pd pa pb) s = .next t ∧ OnlySlot pd s t ∧ t.tagOf pd = s.tagOf pa ∧
      ∀ i : CoefIdx,
        ((t.coefAt pd i).toNat : Int) = (((s.coefAt pa i).toNat : Int) - (s.coefAt pb i).toNat) % 3329) ∧
    ∀ s : State, s.pend = none →
      s.writeCmd (encode (.psub pd pa pb)) =
        if s.tagOf pa = s.tagOf pb then { s with pend := some (encode (.psub pd pa pb)) }
        else s.raise .domain 0x0004#15 (encode (.psub pd pa pb))

/-- R133, its pseudocode: PNTT stores what the printed loop computes, tagged NTT; a source tagged NTT is refused at
issue. That `exec` completes on such a source too is the model's choice (assumption 5, DEDUCED). -/
def Obligations.PnttStoresTheForwardTransform : Prop :=
  LegalWhenZero 0x23#8 0x0000FFFF#32 ∧
  ∀ pd pa : Slot,
    encode (.pntt pd pa) = 0x23000000#32 ||| field pd 20 ||| field pa 16 ∧
    (∀ s : State, ∃ t, exec (.pntt pd pa) s = .next t ∧ OnlySlot pd s t ∧ t.tagOf pd = true ∧
      (t.slot pd).toList = nttLoop (s.slot pa).toList) ∧
    ∀ s : State, s.pend = none →
      s.writeCmd (encode (.pntt pd pa)) =
        if s.tagOf pa = false then { s with pend := some (encode (.pntt pd pa)) }
        else s.raise .domain 0x0004#15 (encode (.pntt pd pa))

/-- R134, its pseudocode: PINTT stores what the printed loop computes, scaling included, tagged normal; a source tagged
normal is refused at issue. That `exec` completes on such a source too is the model's choice (assumption 5, DEDUCED). -/
def Obligations.PinttStoresTheInverseTransform : Prop :=
  LegalWhenZero 0x24#8 0x0000FFFF#32 ∧
  ∀ pd pa : Slot,
    encode (.pintt pd pa) = 0x24000000#32 ||| field pd 20 ||| field pa 16 ∧
    (∀ s : State, ∃ t, exec (.pintt pd pa) s = .next t ∧ OnlySlot pd s t ∧ t.tagOf pd = false ∧
      (t.slot pd).toList = inttLoop (s.slot pa).toList) ∧
    ∀ s : State, s.pend = none →
      s.writeCmd (encode (.pintt pd pa)) =
        if s.tagOf pa = true then { s with pend := some (encode (.pintt pd pa)) }
        else s.raise .domain 0x0004#15 (encode (.pintt pd pa))

/-- R135, its pseudocode: pair `i` of PMUL's result is `(a0 + a1 x)(b0 + b1 x) mod (x^2 - GAMMA(i))`, tagged NTT; a
source tagged normal is refused at issue. That `exec` completes on such a source too is the model's choice (assumption 5,
DEDUCED). -/
def Obligations.PmulStoresThePairProducts : Prop :=
  LegalWhenZero 0x22#8 0x00000FFF#32 ∧
  (∀ i < 128, gamma i = if i % 2 = 0 then zetaPlain (64 + i / 2) else 3329 - zetaPlain (64 + i / 2)) ∧
  ∀ pd pa pb : Slot,
    encode (.pmul pd pa pb) = 0x22000000#32 ||| field pd 20 ||| field pa 16 ||| field pb 12 ∧
    (∀ s : State, ∃ t, exec (.pmul pd pa pb) s = .next t ∧ OnlySlot pd s t ∧ t.tagOf pd = true ∧
      ∀ i : Fin 128,
        let e : CoefIdx := ⟨2 * i.val, by omega⟩
        let o : CoefIdx := ⟨2 * i.val + 1, by omega⟩
        let a0 := (s.coefAt pa e).toNat
        let a1 := (s.coefAt pa o).toNat
        let b0 := (s.coefAt pb e).toNat
        let b1 := (s.coefAt pb o).toNat
        (t.coefAt pd e).toNat = (a0 * b0 + a1 * b1 * 17 ^ (2 * brv7 i + 1)) % 3329 ∧
        (t.coefAt pd o).toNat = (a0 * b1 + a1 * b0) % 3329) ∧
    ∀ s : State, s.pend = none →
      s.writeCmd (encode (.pmul pd pa pb)) =
        if s.tagOf pa = true ∧ s.tagOf pb = true then { s with pend := some (encode (.pmul pd pa pb)) }
        else s.raise .domain 0x0004#15 (encode (.pmul pd pa pb))

/-- R136: coefficients and tag are copied; nothing is tested at issue; `pd = pa` changes nothing. -/
def Obligations.PcopyCopiesTheSlot : Prop :=
  LegalWhenZero 0x25#8 0x0000FFFF#32 ∧
  ∀ pd pa : Slot,
    encode (.pcopy pd pa) = 0x25000000#32 ||| field pd 20 ||| field pa 16 ∧
    (∀ s : State, ∃ t, exec (.pcopy pd pa) s = .next t ∧ OnlySlot pd s t ∧ t.slot pd = s.slot pa ∧
      t.tagOf pd = s.tagOf pa ∧ (pd = pa → t = s)) ∧
    ∀ s : State, s.pend = none → s.writeCmd (encode (.pcopy pd pa)) = { s with pend := some (encode (.pcopy pd pa)) }

/-- R137: all coefficients 0 and the tag normal; nothing is tested at issue. -/
def Obligations.PzeroClearsTheSlot : Prop :=
  LegalWhenZero 0x26#8 0x000FFFFF#32 ∧
  ∀ pd : Slot,
    encode (.pzero pd) = 0x26000000#32 ||| field pd 20 ∧
    (∀ s : State, ∃ t, exec (.pzero pd) s = .next t ∧ OnlySlot pd s t ∧ t.tagOf pd = false ∧
      ∀ i : CoefIdx, t.coefAt pd i = 0#12) ∧
    ∀ s : State, s.pend = none → s.writeCmd (encode (.pzero pd)) = { s with pend := some (encode (.pzero pd)) }

/-- R151: DIFF is cleared and nothing else changes. -/
def Obligations.CtclrClearsDiff : Prop :=
  LegalWhenZero 0x30#8 0x00FFFFFF#32 ∧ encode .ctclr = 0x30000000#32 ∧
  ∀ s : State, exec .ctclr s = .next { s with diff := 0#32 }

/-- R152: `DIFF | (CMPA ^ CMPB)`; the bits of DIFF only grow, DIFF becomes nonzero exactly when the pair differs or it was
nonzero, and a second CTACC changes nothing. -/
def Obligations.CtaccAccumulatesTheDifference : Prop :=
  LegalWhenZero 0x31#8 0x00FFFFFF#32 ∧ encode .ctacc = 0x31000000#32 ∧
  ∀ s : State, ∃ t, exec .ctacc s = .next t ∧ t = { s with diff := t.diff } ∧
    t.diff = s.diff ||| (s.cmpa ^^^ s.cmpb) ∧ t.diff &&& s.diff = s.diff ∧
    (t.diff ≠ 0#32 ↔ s.cmpa ≠ s.cmpb ∨ s.diff ≠ 0#32) ∧ exec .ctacc t = .next t

/-- R153: the masked selection, and that it is KA on a match and KB on a mismatch; only KOUT is written. -/
def Obligations.CselSelectsByTheMask : Prop :=
  LegalWhenZero 0x32#8 0x00FFFFFF#32 ∧ encode .csel = 0x32000000#32 ∧
  ∀ s : State, ∃ t, exec .csel s = .next t ∧ t = { s with kout := t.kout } ∧
    (∀ i : Fin 8, t.kout[i] = s.ka[i] ^^^
      ((0#32 - (if (s.diff ||| (0#32 - s.diff)).getLsbD 31 then 1#32 else 0#32)) &&& (s.ka[i] ^^^ s.kb[i]))) ∧
    (s.diff = 0#32 → t.kout = s.ka) ∧ (s.diff ≠ 0#32 → t.kout = s.kb) ∧ exec .csel t = .next t

/-- R160: NOP passes through issue and completion and leaves the block as it was. -/
def Obligations.NopLeavesTheState : Prop :=
  LegalWhenZero 0x00#8 0x00FFFFFF#32 ∧ encode .nop = 0x00000000#32 ∧
  ∀ s : State, exec .nop s = .next s ∧
    (s.pend = none → s.writeCmd 0x00000000#32 = { s with pend := some 0x00000000#32 } ∧
      complete { s with pend := some 0x00000000#32 } = .next s)

/-- R161: after ZALL everything is as after reset but for ERR and FADDR; PEND is the engine's, and the model's own two
fields are not the block's (assumptions 1 and 2). -/
def Obligations.ZallZeroizesAllButTheFaultRecord : Prop :=
  LegalWhenZero 0x01#8 0x00FFFFFF#32 ∧ encode .zall = 0x01000000#32 ∧
  ∀ s : State, exec .zall s = .next { State.reset with
    err := s.err, faddr := s.faddr, pend := s.pend, events := s.events, replies := s.replies }

/-- R130: (d) and (e) for all seven commands of the array controller: the destination's coefficients and tag and nothing
else are written, every coefficient written is canonical, and no fault is recorded. That a command completes on tags that issue
refuses too is the model's choice (assumption 5, DEDUCED). -/
def Obligations.ArrayCommandsWriteOneCanonicalSlot : Prop :=
  ∀ (pd pa pb : Slot) (i : Instr),
    i ∈ [.padd pd pa pb, .psub pd pa pb, .pmul pd pa pb, .pntt pd pa, .pintt pd pa, .pcopy pd pa, .pzero pd] →
    ∀ s : State, s.InRange → ∃ t, exec i s = .next t ∧ OnlySlot pd s t ∧ CanonicalElt (t.slot pd)

/-! ### Arithmetic and transforms -/

/-- R101: the datapath of the multiplier: the low half of S is zero, S stays below its bound, and the multiplexer gives
the Montgomery product. -/
def Obligations.MontgomeryDatapathGivesTheProduct : Prop :=
  ∀ a b : Coef, Canonical a → Canonical b →
    (mmS a b).toNat < 229244928 ∧ (mmS a b).toNat = a.toNat * b.toNat + (mmM a b).toNat * 3329 ∧
    (mmS a b).setWidth 16 = 0#16 ∧ (mmQuot a b).toNat ≤ 3497 ∧ mmDatapath a b = mm a b

/-- R102 and R103: the datapaths of the adder and the subtractor. -/
def Obligations.AddSubDatapathsGiveTheResidues : Prop :=
  ∀ a b : Coef, Canonical a → Canonical b →
    maddqDatapath a b = maddq a b ∧ (maddq a b).toNat = (a.toNat + b.toNat) % 3329 ∧
    msubqDatapath a b = msubq a b ∧ msubq (maddq a b) b = a ∧
    (msubq a b).toNat = (if b.toNat ≤ a.toNat then a.toNat - b.toNat else a.toNat + 3329 - b.toNat)

/-- R100: the properties of the Montgomery product that the rule lists. -/
def Obligations.MontgomeryProductLaws : Prop :=
  ∀ a b : Coef, Canonical a → Canonical b →
    (mm a b).toNat = a.toNat * b.toNat * 169 % 3329 ∧ (mm a b).toNat * 65536 % 3329 = a.toNat * b.toNat % 3329 ∧
    Canonical (mm a b) ∧ mm a b = mm b a ∧ mm a 0#12 = 0#12 ∧ mm a 2285#12 = a ∧
    (mm a 1#12).toNat = a.toNat * 169 % 3329 ∧ (mm a 1353#12).toNat = a.toNat * 2285 % 3329 ∧
    (mm (mm a b) 1353#12).toNat = a.toNat * b.toNat % 3329 ∧
    mm (mm a 1353#12) (mm b 1353#12) = mm (mm (mm a b) 1353#12) 1353#12 ∧
    (mm a (mm b 1353#12)).toNat = a.toNat * b.toNat % 3329

/-- R120: `brv7` reverses seven bits, the stored table is the bit-reversed powers of 17 in Montgomery form, one Montgomery product with an entry is a
plain multiplication by the root, 17 has order 256, and `zbar` gives the root that undoes another. -/
def Obligations.RootTableHoldsTheBitReversedPowers : Prop :=
  (∀ i < 128, brv7 i < 128 ∧ ∀ k < 7, (brv7 i).testBit k = i.testBit (6 - k)) ∧
  (∀ i < 128, (zeta i).toNat = 17 ^ brv7 i * 65536 % 3329) ∧
  (∀ i < 128, ∀ b : Coef, (mm (zeta i) b).toNat = 17 ^ brv7 i * b.toNat % 3329) ∧
  17 ^ 128 % 3329 = 3328 ∧ 17 ^ 256 % 3329 = 1 ∧
  ∀ z, 1 ≤ z → z < 128 → 1 ≤ zbar z ∧ zbar z < 128 ∧ 17 ^ brv7 z * 17 ^ brv7 (zbar z) % 3329 = 3328

/-- R124: a forward butterfly and then the inverse butterfly with the index `zbar(z)` doubles both legs. -/
def Obligations.InverseButterflyUndoesForwardUpToTwo : Prop :=
  ∀ (ca cb : CReg) (z z' : RootIdx) (s : State), ca ≠ cb → 1 ≤ z.val → z'.val = zbar z →
    Canonical s.c[ca] → Canonical s.c[cb] →
    ∃ t u, exec (.bfct ca cb z) s = .next t ∧ exec (.bfgs ca cb z') t = .next u ∧
      u.c[ca].toNat = 2 * s.c[ca].toNat % 3329 ∧ u.c[cb].toNat = 2 * s.c[cb].toNat % 3329

/-- R139: butterfly number `b` of layer `len` touches `j` and `j + len` with the root index of the rule, forward and
inverse. -/
def Obligations.LayersAreTheButterfliesOfTheAddressSequence : Prop :=
  ∀ len ∈ [2, 4, 8, 16, 32, 64, 128], ∀ b < 128, ∀ g : RingElt,
    let j := b / len * (2 * len) + b % len
    (((nttLayer len g.toList).getD j 0#12, (nttLayer len g.toList).getD (j + len) 0#12) =
      bfctPair (128 / len + b / len) (g.toList.getD j 0#12) (g.toList.getD (j + len) 0#12)) ∧
    (((inttLayer len g.toList).getD j 0#12, (inttLayer len g.toList).getD (j + len) 0#12) =
      bfgsPair (256 / len - 1 - b / len) (g.toList.getD j 0#12) (g.toList.getD (j + len) 0#12))

/-- R133, the meaning of the result: `g[2i] + g[2i+1] x = f mod (x^2 - GAMMA(i))`, for every `f`. -/
def Obligations.ForwardTransformIsReductionModuloTheQuadratics : Prop :=
  ∀ (f : RingElt) (i : Fin 128),
    ((ntt f)[2 * i.val]'(by omega)).toNat =
      (∑ k : Fin 128, (f[2 * k.val]'(by omega)).toNat * 17 ^ ((2 * brv7 i + 1) * k.val)) % 3329 ∧
    ((ntt f)[2 * i.val + 1]'(by omega)).toNat =
      (∑ k : Fin 128, (f[2 * k.val + 1]'(by omega)).toNat * 17 ^ ((2 * brv7 i + 1) * k.val)) % 3329

/-- R138 (1): the two transforms undo each other exactly. -/
def Obligations.TransformsAreMutualInverses : Prop :=
  ∀ f : RingElt, CanonicalElt f → intt (ntt f) = f ∧ ntt (intt f) = f

/-- R138 (2): the product through the transforms is the product in Z_q[x]/(x^256 + 1). -/
def Obligations.TransformedProductIsTheNegacyclicProduct : Prop :=
  ∀ (f g : RingElt), CanonicalElt f → CanonicalElt g → ∀ k : CoefIdx,
    ((intt (baseMul (ntt f) (ntt g)))[k].toNat : Int) =
      ((∑ i : CoefIdx, ∑ j : CoefIdx, if i.val + j.val = k.val then (f[i].toNat : Int) * g[j].toNat else 0) -
        ∑ i : CoefIdx, ∑ j : CoefIdx, if i.val + j.val = k.val + 256 then (f[i].toNat : Int) * g[j].toNat else 0) % 3329

/-- R138 (3): the transforms commute with the ring sum and the ring difference. -/
def Obligations.TransformsAreLinear : Prop :=
  ∀ f g : RingElt, CanonicalElt f → CanonicalElt g →
    ntt (ringAdd f g) = ringAdd (ntt f) (ntt g) ∧ ntt (ringSub f g) = ringSub (ntt f) (ntt g) ∧
    intt (ringAdd f g) = ringAdd (intt f) (intt g) ∧ intt (ringSub f g) = ringSub (intt f) (intt g)

/-- R135, the sequence of Montgomery products that an implementation may use: it equals the pair product. -/
def Obligations.PairProductDatapathGivesThePairProduct : Prop :=
  ∀ i < 128, ∀ a0 a1 b0 b1 : Coef, Canonical a0 → Canonical a1 → Canonical b0 → Canonical b1 →
    pairProductDatapath i a0 a1 b0 b1 = pairProduct i a0 a1 b0 b1

/-- R79: MULQ leaves the plain product in `cd` and 1353 in `ct`, TOMONT and FROMMONT convert, when the scratch register is
another than the one the rule names. That the commands' effects run one after the other (`execAll`), without the writes
to CMD and the polls of the rule's EXEC between them, is the model's choice (assumption 12, DESIGN CHOICE). -/
def Obligations.PseudoInstructionsGiveTheirResults : Prop :=
  ∀ (cd ca cb ct : CReg) (s : State),
    (ct ≠ cd → ∃ t, execAll (Instr.mulq cd ca cb ct) s = .next t ∧ OnlyScalars [cd, ct] s t ∧ t.c[ct] = 1353#12 ∧
      t.c[cd].toNat = s.c[ca].toNat * s.c[cb].toNat % 3329) ∧
    (ct ≠ ca → ∃ t, execAll (Instr.toMont cd ca ct) s = .next t ∧ OnlyScalars [cd, ct] s t ∧
      t.c[cd].toNat = s.c[ca].toNat * 65536 % 3329) ∧
    (ct ≠ ca → ∃ t, execAll (Instr.fromMont cd ca ct) s = .next t ∧ OnlyScalars [cd, ct] s t ∧
      t.c[cd].toNat = s.c[ca].toNat * 169 % 3329)

/-- R150: after any pairs of words DIFF is zero exactly when it was zero and every pair was equal. That `presentAll` puts
each pair into CMPA and CMPB directly and runs the effect of CTACC, without the transactions between, is the model's
choice (assumption 12, DESIGN CHOICE). -/
def Obligations.DiffIsZeroExactlyWhenAllPairsAreEqual : Prop :=
  ∀ (ps : List (Word × Word)) (s : State), ∃ t, presentAll ps s = .next t ∧
    (t.diff = 0#32 ↔ s.diff = 0#32 ∧ ∀ p ∈ ps, p.1 = p.2)

/-! ### The window and its faults -/

/-- R170: what raising a fault does, and that a refused transaction does nothing else: every write either raises one
fault or leaves FADDR and FDATA alone and sets no bit of ERR; every read either raises one fault and returns 0 or
changes nothing. -/
def Obligations.EveryTransactionFaultsOnceOrActs : Prop :=
  (∀ (s : State) (x : Cause) (off : Offset) (v : Word),
    (s.raise x off v).err = s.err ||| (match x with
      | .illcmd => 0x01#5
      | .domain => 0x02#5
      | .range => 0x04#5
      | .busyacc => 0x08#5
      | .access => 0x10#5) ∧
    (s.err = 0#5 → (s.raise x off v).faddr = off ∧ (s.raise x off v).fdata = v) ∧
    (s.err ≠ 0#5 → (s.raise x off v).faddr = s.faddr ∧ (s.raise x off v).fdata = s.fdata) ∧
    s.raise x off v = { s with
      err := (s.raise x off v).err, faddr := (s.raise x off v).faddr, fdata := (s.raise x off v).fdata }) ∧
  (∀ (s : State) (off : Offset) (d : WriteData),
    (∃ x, s.hostWrite off d = s.raise x off d.zext) ∨
    ((s.hostWrite off d).faddr = s.faddr ∧ (s.hostWrite off d).fdata = s.fdata ∧
      (s.hostWrite off d).err ||| s.err = s.err)) ∧
  ∀ (s : State) (off : Offset) (size : Width),
    (∃ x, s.hostRead off size = (s.raise x off 0#32, 0#32)) ∨ (s.hostRead off size).1 = s

/-- R176: the transactions that raise ACCESS, whatever BUSY is. -/
def Obligations.MalformedTransactionsRaiseAccess : Prop :=
  ∀ (s : State) (off : Offset),
    (∀ d : WriteData, d.width ≠ .four ∨ off.toNat % 4 ≠ 0 ∨ Unmapped off.toNat ∨ ReadOnly off.toNat →
      s.hostWrite off d = s.raise .access off d.zext) ∧
    ∀ size : Width, size ≠ .four ∨ off.toNat % 4 ≠ 0 ∨ Unmapped off.toNat ∨ WriteOnly off.toNat →
      s.hostRead off size = (s.raise .access off 0#32, 0#32)

/-- R175: while a command is pending the five status locations read, and every other transaction that passes the ACCESS
checks raises BUSYACC, the pending command unaffected. -/
def Obligations.PendingCommandRefusesOtherTransactions : Prop :=
  ∀ (s : State) (w : Word) (off : Offset), s.pend = some w → off.toNat % 4 = 0 →
    (∀ v : Word, ¬Unmapped off.toNat → ¬ReadOnly off.toNat →
      s.hostWrite off (.word v) = s.raise .busyacc off v) ∧
    (¬Unmapped off.toNat → ¬WriteOnly off.toNat → ¬StatusOffset off.toNat →
      s.hostRead off .four = (s.raise .busyacc off 0#32, 0#32)) ∧
    s.hostRead 0x0000#15 .four = (s, 0x4D4D0D01#32) ∧
    s.hostRead 0x0008#15 .four = (s, if s.err = 0#5 then 1#32 else 3#32) ∧
    s.hostRead 0x000C#15 .four = (s, s.err.setWidth 32) ∧
    s.hostRead 0x0010#15 .four = (s, s.faddr.setWidth 32) ∧
    s.hostRead 0x0014#15 .four = (s, s.fdata)

/-- R174: a write of 3329 or more to a scalar register or a coefficient, and an LDI with such an immediate, raise RANGE
and store nothing; a smaller value is stored. -/
def Obligations.OutOfRangeValuesRaiseRange : Prop :=
  ∀ (s : State) (v : Word), s.pend = none →
    (∀ r : CReg, let off := BitVec.ofNat 15 (0x0100 + 4 * r.val)
      s.hostWrite off (.word v) = if 3329 ≤ v.toNat then s.raise .range off v
        else { s with c := s.c.set r (v.setWidth 12) }) ∧
    (∀ (p : Slot) (i : CoefIdx), let off := BitVec.ofNat 15 (0x4000 + 0x400 * p.val + 4 * i.val)
      (3329 ≤ v.toNat → s.hostWrite off (.word v) = s.raise .range off v) ∧
      (v.toNat < 3329 → OnlyCoef p i s (s.hostWrite off (.word v)) ∧
        (s.hostWrite off (.word v)).coefAt p i = v.setWidth 12)) ∧
    ∀ cd imm, decode v = .ok (.ldi cd imm) → 3329 ≤ imm.toNat → s.writeCmd v = s.raise .range 0x0004#15 v

/-- R64: what every readable location reads while no command is pending; the read changes nothing. -/
def Obligations.ReadsReturnTheLocation : Prop :=
  ∀ s : State, s.pend = none →
    s.hostRead 0x0000#15 .four = (s, 0x4D4D0D01#32) ∧
    s.hostRead 0x0008#15 .four = (s, if s.err = 0#5 then 0#32 else 2#32) ∧
    s.hostRead 0x000C#15 .four = (s, s.err.setWidth 32) ∧
    s.hostRead 0x0010#15 .four = (s, s.faddr.setWidth 32) ∧
    s.hostRead 0x0014#15 .four = (s, s.fdata) ∧
    s.hostRead 0x0018#15 .four = (s, s.tag.setWidth 32) ∧
    (∀ p : Slot, (s.hostRead 0x0018#15 .four).2.getLsbD p = s.tagOf p) ∧
    (∀ i : Fin 8, s.hostRead (BitVec.ofNat 15 (0x0060 + 4 * i.val)) .four = (s, s.kout[i])) ∧
    (∀ r : CReg, s.hostRead (BitVec.ofNat 15 (0x0100 + 4 * r.val)) .four = (s, s.c[r].setWidth 32)) ∧
    (∀ z : RootIdx, s.hostRead (BitVec.ofNat 15 (0x0200 + 4 * z.val)) .four =
      (s, BitVec.ofNat 32 (17 ^ brv7 z * 65536 % 3329))) ∧
    ∀ (p : Slot) (i : CoefIdx), s.hostRead (BitVec.ofNat 15 (0x4000 + 0x400 * p.val + 4 * i.val)) .four =
      (s, (s.coefAt p i).setWidth 32)

/-- R65: what a write to each writable location does while no command is pending; a write to CMD is the issue, whose rule
is `IssueAcceptsUnlessATestFails`. -/
def Obligations.WritesActOnTheLocation : Prop :=
  ∀ (s : State) (v : Word), s.pend = none →
    s.hostWrite 0x0004#15 (.word v) = s.issue v ∧
    s.hostWrite 0x000C#15 (.word v) = { s with err := s.err &&& ~~~v.setWidth 5 } ∧
    s.hostWrite 0x0018#15 (.word v) = { s with tag := v.setWidth 16 } ∧
    (∀ p : Slot, (s.hostWrite 0x0018#15 (.word v)).tagOf p = v.getLsbD p) ∧
    (∀ i : Fin 8, s.hostWrite (BitVec.ofNat 15 (0x0020 + 4 * i.val)) (.word v) = { s with ka := s.ka.set i v }) ∧
    (∀ i : Fin 8, s.hostWrite (BitVec.ofNat 15 (0x0040 + 4 * i.val)) (.word v) = { s with kb := s.kb.set i v }) ∧
    s.hostWrite 0x0080#15 (.word v) = { s with cmpa := v } ∧
    s.hostWrite 0x0084#15 (.word v) = { s with cmpb := v } ∧
    (∀ r : CReg, s.hostWrite (BitVec.ofNat 15 (0x0100 + 4 * r.val)) (.word v) =
      if 3329 ≤ v.toNat then s.raise .range (BitVec.ofNat 15 (0x0100 + 4 * r.val)) v
      else { s with c := s.c.set r (v.setWidth 12) }) ∧
    ∀ (p : Slot) (i : CoefIdx), s.hostWrite (BitVec.ofNat 15 (0x4000 + 0x400 * p.val + 4 * i.val)) (.word v) =
      if 3329 ≤ v.toNat then s.raise .range (BitVec.ofNat 15 (0x4000 + 0x400 * p.val + 4 * i.val)) v
      else { s with coef := s.coef.set p (s.coef[p].set i (v.setWidth 12)) }

/-! ### Reset -/

/-- R191: the whole reset state, and what STATUS, ID and DOMTAG read in it. -/
def Obligations.ResetStateIsAllZero : Prop :=
  (∀ r : CReg, State.reset.c[r] = 0#12) ∧ (∀ (p : Slot) (i : CoefIdx), State.reset.coefAt p i = 0#12) ∧
  (∀ p : Slot, State.reset.tagOf p = false) ∧
  (∀ i : Fin 8, State.reset.ka[i] = 0#32 ∧ State.reset.kb[i] = 0#32 ∧ State.reset.kout[i] = 0#32) ∧
  State.reset.cmpa = 0#32 ∧ State.reset.cmpb = 0#32 ∧ State.reset.diff = 0#32 ∧ State.reset.pend = none ∧
  State.reset.err = 0#5 ∧ State.reset.faddr = 0#15 ∧ State.reset.fdata = 0#32 ∧
  (State.reset.hostRead 0x0008#15 .four).2 = 0#32 ∧ (State.reset.hostRead 0x0000#15 .four).2 = 0x4D4D0D01#32 ∧
  (State.reset.hostRead 0x0018#15 .four).2 = 0#32 ∧
  ∀ z : RootIdx, (State.reset.hostRead (BitVec.ofNat 15 (0x0200 + 4 * z.val)) .four).2 =
    BitVec.ofNat 32 (17 ^ brv7 z * 65536 % 3329)

/-- R190: a reset, whatever the state and whether or not a command is pending, gives the reset state; what the agents do
next and what the host has read are not the block's (assumption 8). -/
def Obligations.ResetDiscardsThePendingCommand : Prop :=
  ∀ (s : State) (es : List Event), s.events = .reset :: es →
    step s = .next { State.reset with events := es, replies := s.replies }

/-! ### Rules of every step -/

/-- The invariant holds after reset. -/
def Obligations.InvariantHoldsAfterReset : Prop := State.reset.Inv

/-- R25 and R81: every step from a state in range, whose pending word was accepted, leads to such a state. -/
def Obligations.EveryStepKeepsTheInvariant : Prop :=
  ∀ s t : State, s.Inv → step s = .next t → t.Inv

/-- R82 and R178: no step from such a state stops the machine. -/
def Obligations.NoStepFromTheInvariantStops : Prop := ∀ s : State, s.Inv → ∃ t, step s = .next t

/-- R58: a transaction made while a command is pending changes nothing that the command reads or writes, but for the fault
record. -/
def Obligations.TransactionsCannotDisturbThePendingCommand : Prop :=
  ∀ (s : State) (w : Word) (x : Txn), s.pend = some w →
    s.transact x = { s with
      err := (s.transact x).err, faddr := (s.transact x).faddr, fdata := (s.transact x).fdata,
      replies := (s.transact x).replies }

/-- R31 and R161: no command sets or clears a bit of ERR or changes FADDR, and only ZALL changes FDATA, to 0. -/
def Obligations.CommandsLeaveTheFaultRecord : Prop :=
  ∀ (i : Instr) (s t : State), exec i s = .next t →
    t.err = s.err ∧ t.faddr = s.faddr ∧ (i ≠ .zall → t.fdata = s.fdata) ∧ (i = .zall → t.fdata = 0#32)

/-- R31: a bit of ERR is set only by a refused transaction and cleared only by a write of ones to ERR while no command is
pending, or by reset. -/
def Obligations.ErrBitsAreStickyUntilAcknowledged : Prop :=
  ∀ (s t : State) (k : Fin 5), step s = .next t →
    (s.err.getLsbD k = false → t.err.getLsbD k = true →
      ∃ x cause off v, s.Hosts x ∧ t.err = (s.raise cause off v).err ∧
        ((∃ d, x = .write off d ∧ v = d.zext) ∨ (∃ size, x = .read off size ∧ v = 0#32))) ∧
    (s.err.getLsbD k = true → t.err.getLsbD k = false →
      s.Resets ∨ (s.pend = none ∧ ∃ v : Word, s.Hosts (.write 0x000C#15 (.word v)) ∧ v.getLsbD k = true))

/-- R30: PEND is filled only by an accepted write to CMD, keeps its word while the host goes on, and is emptied only by
completion or reset. -/
def Obligations.PendIsFilledByIssueAndEmptiedByCompletion : Prop :=
  ∀ s t : State, step s = .next t →
    (∀ w, s.pend = none → t.pend = some w →
      s.Hosts (.write 0x0004#15 (.word w)) ∧ ∃ i, decode w = .ok i ∧ issueCheck s i = none) ∧
    ∀ w, s.pend = some w →
      ((s.Resets ∨ s.events = [] ∨ s.events.head? = some .engine) → t.pend = none) ∧
      (∀ x, s.Hosts x → t.pend = some w)

/-- R24 and R198: a tag changes only by a write to DOMTAG, by a command that writes that slot as a whole, by ZALL, or by
reset; in particular neither a host write to a coefficient nor STC changes one. -/
def Obligations.TagsChangeOnlyByDomtagOrSlotCommands : Prop :=
  ∀ (s t : State) (p : Slot), step s = .next t → t.tagOf p ≠ s.tagOf p →
    s.Resets ∨ (∃ v, s.Hosts (.write 0x0018#15 (.word v)) ∧ t.tagOf p = v.getLsbD p) ∨ s.Completes .zall ∨
    ∃ i, s.Completes i ∧ ((∃ pa pb, i = .padd p pa pb ∨ i = .psub p pa pb ∨ i = .pmul p pa pb) ∨
      (∃ pa, i = .pntt p pa ∨ i = .pintt p pa ∨ i = .pcopy p pa) ∨ i = .pzero p)

/-- R199 and R40: a bit of DIFF is cleared only by CTCLR, ZALL and reset, and set only by CTACC. -/
def Obligations.DiffBitsChangeOnlyByTheCompareCommands : Prop :=
  ∀ (s t : State) (k : Fin 32), step s = .next t →
    (s.diff.getLsbD k = true → t.diff.getLsbD k = false → s.Completes .ctclr ∨ s.Completes .zall ∨ s.Resets) ∧
    (s.diff.getLsbD k = false → t.diff.getLsbD k = true →
      s.Completes .ctacc ∧ s.cmpa.getLsbD k ≠ s.cmpb.getLsbD k)

/-- R29 and R187 (a): DIFF reaches the host only through KOUT: two states equal but for DIFF take every step alike, the
values the host reads included, unless the step completes CSEL. -/
def Obligations.DiffIsHiddenUntilCselCompletes : Prop :=
  ∀ s t s' : State, AgreeButDiff s t → ¬s.Completes .csel → step s = .next s' →
    ∃ t', step t = .next t' ∧ AgreeButDiff s' t'
end

