-- ==== Sys2Proof/Laws/PerInstr.lean ====
section
/-! SUPPORT. The family of per-instruction lemmas: the word of every command matches its row of the opcode table
(`30_encoding.md` rules R71 and R74). -/

namespace Sys2Proof.Laws.WordMatchesRow

/-- The word of `i` has the row's fixed bits: opcode and must-be-zero bits (R74). -/
def Statement (i : Instr) : Prop :=
  ∃ r ∈ opcodeTable, r.1 = i.mnemonic ∧ encode i &&& r.2.2 = r.2.1

/-! ### One lemma per format: the bits that the mask of the format fixes, whatever the operands -/

theorem row_s3 (op : BitVec 8) (x y z : BitVec 4) :
    (op ++ x ++ y ++ z ++ 0#12 : Word) &&& 0xFF000FFF#32 = op ++ 0#24 := by
  ext i hi
  simp only [BitVec.getElem_and, BitVec.getElem_append]
  interval_cases i <;> simp

theorem row_sb (op : BitVec 8) (x y : BitVec 4) (z : BitVec 7) :
    (op ++ x ++ y ++ 0#1 ++ z ++ 0#8 : Word) &&& 0xFF0080FF#32 = op ++ 0#24 := by
  ext i hi
  simp only [BitVec.getElem_and, BitVec.getElem_append]
  interval_cases i <;> simp

theorem row_si (op : BitVec 8) (x : BitVec 4) (imm : BitVec 12) :
    (op ++ x ++ 0#8 ++ imm : Word) &&& 0xFF0FF000#32 = op ++ 0#24 := by
  ext i hi
  simp only [BitVec.getElem_and, BitVec.getElem_append]
  interval_cases i <;> simp

theorem row_sm (op : BitVec 8) (x y : BitVec 4) (idx : BitVec 8) :
    (op ++ x ++ y ++ idx ++ 0#8 : Word) &&& 0xFF0000FF#32 = op ++ 0#24 := by
  ext i hi
  simp only [BitVec.getElem_and, BitVec.getElem_append]
  interval_cases i <;> simp

theorem row_p2 (op : BitVec 8) (x y : BitVec 4) : (op ++ x ++ y ++ 0#16 : Word) &&& 0xFF00FFFF#32 = op ++ 0#24 := by
  ext i hi
  simp only [BitVec.getElem_and, BitVec.getElem_append]
  interval_cases i <;> simp

theorem row_p1 (op : BitVec 8) (x : BitVec 4) : (op ++ x ++ 0#20 : Word) &&& 0xFF0FFFFF#32 = op ++ 0#24 := by
  ext i hi
  simp only [BitVec.getElem_and, BitVec.getElem_append]
  interval_cases i <;> simp

/-! ### One lemma per command -/

theorem nop : Statement .nop :=
  ⟨("NOP", 0x00000000#32, 0xFFFFFFFF#32), by simp [opcodeTable], rfl, by decide⟩

theorem zall : Statement .zall :=
  ⟨("ZALL", 0x01000000#32, 0xFFFFFFFF#32), by simp [opcodeTable], rfl, by decide⟩

theorem mmul (cd : CReg) (ca : CReg) (cb : CReg) : Statement (.mmul cd ca cb) :=
  ⟨("MMUL", 0x10000000#32, 0xFF000FFF#32), by simp [opcodeTable], rfl, row_s3 _ _ _ _⟩

theorem madd (cd : CReg) (ca : CReg) (cb : CReg) : Statement (.madd cd ca cb) :=
  ⟨("MADD", 0x11000000#32, 0xFF000FFF#32), by simp [opcodeTable], rfl, row_s3 _ _ _ _⟩

theorem msub (cd : CReg) (ca : CReg) (cb : CReg) : Statement (.msub cd ca cb) :=
  ⟨("MSUB", 0x12000000#32, 0xFF000FFF#32), by simp [opcodeTable], rfl, row_s3 _ _ _ _⟩

theorem bfct (ca : CReg) (cb : CReg) (z : RootIdx) : Statement (.bfct ca cb z) :=
  ⟨("BFCT", 0x13000000#32, 0xFF0080FF#32), by simp [opcodeTable], rfl, row_sb _ _ _ _⟩

theorem bfgs (ca : CReg) (cb : CReg) (z : RootIdx) : Statement (.bfgs ca cb z) :=
  ⟨("BFGS", 0x14000000#32, 0xFF0080FF#32), by simp [opcodeTable], rfl, row_sb _ _ _ _⟩

theorem ldi (cd : CReg) (imm : BitVec 12) : Statement (.ldi cd imm) :=
  ⟨("LDI", 0x15000000#32, 0xFF0FF000#32), by simp [opcodeTable], rfl, row_si _ _ _⟩

theorem ldc (c : CReg) (p : Slot) (idx : CoefIdx) : Statement (.ldc c p idx) :=
  ⟨("LDC", 0x16000000#32, 0xFF0000FF#32), by simp [opcodeTable], rfl, row_sm _ _ _ _⟩

theorem stc (c : CReg) (p : Slot) (idx : CoefIdx) : Statement (.stc c p idx) :=
  ⟨("STC", 0x17000000#32, 0xFF0000FF#32), by simp [opcodeTable], rfl, row_sm _ _ _ _⟩

theorem padd (pd : Slot) (pa : Slot) (pb : Slot) : Statement (.padd pd pa pb) :=
  ⟨("PADD", 0x20000000#32, 0xFF000FFF#32), by simp [opcodeTable], rfl, row_s3 _ _ _ _⟩

theorem psub (pd : Slot) (pa : Slot) (pb : Slot) : Statement (.psub pd pa pb) :=
  ⟨("PSUB", 0x21000000#32, 0xFF000FFF#32), by simp [opcodeTable], rfl, row_s3 _ _ _ _⟩

theorem pmul (pd : Slot) (pa : Slot) (pb : Slot) : Statement (.pmul pd pa pb) :=
  ⟨("PMUL", 0x22000000#32, 0xFF000FFF#32), by simp [opcodeTable], rfl, row_s3 _ _ _ _⟩

theorem pntt (pd : Slot) (pa : Slot) : Statement (.pntt pd pa) :=
  ⟨("PNTT", 0x23000000#32, 0xFF00FFFF#32), by simp [opcodeTable], rfl, row_p2 _ _ _⟩

theorem pintt (pd : Slot) (pa : Slot) : Statement (.pintt pd pa) :=
  ⟨("PINTT", 0x24000000#32, 0xFF00FFFF#32), by simp [opcodeTable], rfl, row_p2 _ _ _⟩

theorem pcopy (pd : Slot) (pa : Slot) : Statement (.pcopy pd pa) :=
  ⟨("PCOPY", 0x25000000#32, 0xFF00FFFF#32), by simp [opcodeTable], rfl, row_p2 _ _ _⟩

theorem pzero (pd : Slot) : Statement (.pzero pd) :=
  ⟨("PZERO", 0x26000000#32, 0xFF0FFFFF#32), by simp [opcodeTable], rfl, row_p1 _ _⟩

theorem ctclr : Statement .ctclr :=
  ⟨("CTCLR", 0x30000000#32, 0xFFFFFFFF#32), by simp [opcodeTable], rfl, by decide⟩

theorem ctacc : Statement .ctacc :=
  ⟨("CTACC", 0x31000000#32, 0xFFFFFFFF#32), by simp [opcodeTable], rfl, by decide⟩

theorem csel : Statement .csel :=
  ⟨("CSEL", 0x32000000#32, 0xFFFFFFFF#32), by simp [opcodeTable], rfl, by decide⟩

end Sys2Proof.Laws.WordMatchesRow
end

