-- ==== Sys2Proof/Laws/Encoding.lean ====
section
/-! SUPPORT. What the fields of a word say about the word and back, one pair of lemmas per format (`30_encoding.md` rule
R71): the fields of a word put together, and a word whose must-be-zero bits are 0 taken apart. -/

namespace Sys2Proof

/-- Two words are equal when their bits are. -/
theorem word_ext {w v : Word} (h : ∀ i < 32, w.getLsbD i = v.getLsbD i) : w = v := BitVec.eq_of_getLsbD_eq h

/-! ### The fields of a word put together -/

theorem fields_s3 (op : BitVec 8) (x y z : BitVec 4) (l : BitVec 12) :
    opcodeOf (op ++ x ++ y ++ z ++ l : Word) = op ∧ (op ++ x ++ y ++ z ++ l : Word).extractLsb' 20 4 = x ∧
      (op ++ x ++ y ++ z ++ l : Word).extractLsb' 16 4 = y ∧ (op ++ x ++ y ++ z ++ l : Word).extractLsb' 12 4 = z := by
  refine ⟨?_, ?_, ?_, ?_⟩ <;>
    (ext i hi
     simp only [opcodeOf, BitVec.getElem_extractLsb', BitVec.getLsbD_append]
     interval_cases i <;> simp)

theorem fields_sb (op : BitVec 8) (x y : BitVec 4) (b : BitVec 1) (z : BitVec 7) (l : BitVec 8) :
    opcodeOf (op ++ x ++ y ++ b ++ z ++ l : Word) = op ∧ (op ++ x ++ y ++ b ++ z ++ l : Word).extractLsb' 20 4 = x ∧
      (op ++ x ++ y ++ b ++ z ++ l : Word).extractLsb' 16 4 = y ∧
      (op ++ x ++ y ++ b ++ z ++ l : Word).extractLsb' 8 7 = z := by
  refine ⟨?_, ?_, ?_, ?_⟩ <;>
    (ext i hi
     simp only [opcodeOf, BitVec.getElem_extractLsb', BitVec.getLsbD_append]
     interval_cases i <;> simp)

theorem fields_si (op : BitVec 8) (x : BitVec 4) (l : BitVec 8) (imm : BitVec 12) :
    opcodeOf (op ++ x ++ l ++ imm : Word) = op ∧ (op ++ x ++ l ++ imm : Word).extractLsb' 20 4 = x ∧
      (op ++ x ++ l ++ imm : Word).extractLsb' 0 12 = imm := by
  refine ⟨?_, ?_, ?_⟩ <;>
    (ext i hi
     simp only [opcodeOf, BitVec.getElem_extractLsb', BitVec.getLsbD_append]
     interval_cases i <;> simp)

theorem fields_sm (op : BitVec 8) (x y : BitVec 4) (z l : BitVec 8) :
    opcodeOf (op ++ x ++ y ++ z ++ l : Word) = op ∧ (op ++ x ++ y ++ z ++ l : Word).extractLsb' 20 4 = x ∧
      (op ++ x ++ y ++ z ++ l : Word).extractLsb' 16 4 = y ∧ (op ++ x ++ y ++ z ++ l : Word).extractLsb' 8 8 = z := by
  refine ⟨?_, ?_, ?_, ?_⟩ <;>
    (ext i hi
     simp only [opcodeOf, BitVec.getElem_extractLsb', BitVec.getLsbD_append]
     interval_cases i <;> simp)

theorem fields_p2 (op : BitVec 8) (x y : BitVec 4) (l : BitVec 16) :
    opcodeOf (op ++ x ++ y ++ l : Word) = op ∧ (op ++ x ++ y ++ l : Word).extractLsb' 20 4 = x ∧
      (op ++ x ++ y ++ l : Word).extractLsb' 16 4 = y := by
  refine ⟨?_, ?_, ?_⟩ <;>
    (ext i hi
     simp only [opcodeOf, BitVec.getElem_extractLsb', BitVec.getLsbD_append]
     interval_cases i <;> simp)

theorem fields_p1 (op : BitVec 8) (x : BitVec 4) (l : BitVec 20) :
    opcodeOf (op ++ x ++ l : Word) = op ∧ (op ++ x ++ l : Word).extractLsb' 20 4 = x := by
  refine ⟨?_, ?_⟩ <;>
    (ext i hi
     simp only [opcodeOf, BitVec.getElem_extractLsb', BitVec.getLsbD_append]
     interval_cases i <;> simp)

/-! ### A word taken apart into its fields -/

theorem bits_of_masked {w m v : Word} (h : w &&& m = v) (i : Nat) : (w.getLsbD i && m.getLsbD i) = v.getLsbD i := by
  rw [← BitVec.getLsbD_and, h]

theorem rebuild_s3 {w : Word} (h : w &&& 0xFF000FFF#32 = opcodeOf w ++ 0#24) :
    (opcodeOf w ++ w.extractLsb' 20 4 ++ w.extractLsb' 16 4 ++ w.extractLsb' 12 4 ++ 0#12 : Word) = w := by
  refine word_ext fun i hi => ?_
  have hb := bits_of_masked h i
  simp only [opcodeOf, BitVec.getLsbD_append, BitVec.getLsbD_extractLsb'] at hb ⊢
  clear h
  interval_cases i <;> first | (simp; done) | simpa using hb

theorem rebuild_sb {w : Word} (h : w &&& 0xFF0080FF#32 = opcodeOf w ++ 0#24) :
    (opcodeOf w ++ w.extractLsb' 20 4 ++ w.extractLsb' 16 4 ++ 0#1 ++ w.extractLsb' 8 7 ++ 0#8 : Word) = w := by
  refine word_ext fun i hi => ?_
  have hb := bits_of_masked h i
  simp only [opcodeOf, BitVec.getLsbD_append, BitVec.getLsbD_extractLsb'] at hb ⊢
  clear h
  interval_cases i <;> first | (simp; done) | simpa using hb

theorem rebuild_si {w : Word} (h : w &&& 0xFF0FF000#32 = opcodeOf w ++ 0#24) :
    (opcodeOf w ++ w.extractLsb' 20 4 ++ 0#8 ++ w.extractLsb' 0 12 : Word) = w := by
  refine word_ext fun i hi => ?_
  have hb := bits_of_masked h i
  simp only [opcodeOf, BitVec.getLsbD_append, BitVec.getLsbD_extractLsb'] at hb ⊢
  clear h
  interval_cases i <;> first | (simp; done) | simpa using hb

theorem rebuild_sm {w : Word} (h : w &&& 0xFF0000FF#32 = opcodeOf w ++ 0#24) :
    (opcodeOf w ++ w.extractLsb' 20 4 ++ w.extractLsb' 16 4 ++ w.extractLsb' 8 8 ++ 0#8 : Word) = w := by
  refine word_ext fun i hi => ?_
  have hb := bits_of_masked h i
  simp only [opcodeOf, BitVec.getLsbD_append, BitVec.getLsbD_extractLsb'] at hb ⊢
  clear h
  interval_cases i <;> first | (simp; done) | simpa using hb

theorem rebuild_p2 {w : Word} (h : w &&& 0xFF00FFFF#32 = opcodeOf w ++ 0#24) :
    (opcodeOf w ++ w.extractLsb' 20 4 ++ w.extractLsb' 16 4 ++ 0#16 : Word) = w := by
  refine word_ext fun i hi => ?_
  have hb := bits_of_masked h i
  simp only [opcodeOf, BitVec.getLsbD_append, BitVec.getLsbD_extractLsb'] at hb ⊢
  clear h
  interval_cases i <;> first | (simp; done) | simpa using hb

theorem rebuild_p1 {w : Word} (h : w &&& 0xFF0FFFFF#32 = opcodeOf w ++ 0#24) :
    (opcodeOf w ++ w.extractLsb' 20 4 ++ 0#20 : Word) = w := by
  refine word_ext fun i hi => ?_
  have hb := bits_of_masked h i
  simp only [opcodeOf, BitVec.getLsbD_append, BitVec.getLsbD_extractLsb'] at hb ⊢
  clear h
  interval_cases i <;> first | (simp; done) | simpa using hb

end Sys2Proof
end

