-- ==== Sys2Proof/Laws/Modular.lean ====
section
/-! SUPPORT. The scalar functions as numbers (`40_scalar_arith.md` rules R100, R102, R103 and R110), the root table, and
the ring elements as lists of 256 canonical coefficients. -/

namespace Sys2Proof.Machine

/-! ### Results as numbers -/

theorem toNat_ofNat_mod_q (n : Nat) : (BitVec.ofNat 12 (n % 3329)).toNat = n % 3329 := by
  rw [BitVec.toNat_ofNat]
  exact Nat.mod_eq_of_lt (by omega)

theorem mm_toNat (a b : Coef) : (mm a b).toNat = a.toNat * b.toNat * 169 % 3329 := toNat_ofNat_mod_q _

theorem maddq_toNat (a b : Coef) : (maddq a b).toNat = (a.toNat + b.toNat) % 3329 := toNat_ofNat_mod_q _

theorem msubq_toInt (a b : Coef) : ((msubq a b).toNat : Int) = ((a.toNat : Int) - b.toNat) % 3329 := by
  have h0 : 0 ≤ ((a.toNat : Int) - b.toNat) % 3329 := Int.emod_nonneg _ (by decide)
  have h1 : ((a.toNat : Int) - b.toNat) % 3329 < 3329 := Int.emod_lt_of_pos _ (by decide)
  rw [msubq, BitVec.toNat_ofNat, Nat.mod_eq_of_lt (by simp only [Config.q]; omega)]
  simp only [Config.q]
  omega

/-! ### R110: every result is canonical -/

theorem canonical_ofNat_mod (n : Nat) : Canonical (BitVec.ofNat 12 (n % 3329)) := by
  rw [Canonical, toNat_ofNat_mod_q]
  exact Nat.mod_lt _ (by decide)

theorem mm_canonical (a b : Coef) : Canonical (mm a b) := canonical_ofNat_mod _

theorem maddq_canonical (a b : Coef) : Canonical (maddq a b) := canonical_ofNat_mod _

theorem msubq_canonical (a b : Coef) : Canonical (msubq a b) := by
  have h := msubq_toInt a b
  have h1 : ((a.toNat : Int) - b.toNat) % 3329 < 3329 := Int.emod_lt_of_pos _ (by decide)
  rw [Canonical]
  omega

theorem bfctPair_canonical (z : Nat) (a b : Coef) : Canonical (bfctPair z a b).1 ∧ Canonical (bfctPair z a b).2 :=
  ⟨maddq_canonical _ _, msubq_canonical _ _⟩

theorem bfgsPair_canonical (z : Nat) (a b : Coef) : Canonical (bfgsPair z a b).1 ∧ Canonical (bfgsPair z a b).2 :=
  ⟨maddq_canonical _ _, mm_canonical _ _⟩

theorem pairProduct_canonical (i : Nat) (a0 a1 b0 b1 : Coef) :
    Canonical (pairProduct i a0 a1 b0 b1).1 ∧ Canonical (pairProduct i a0 a1 b0 b1).2 :=
  ⟨canonical_ofNat_mod _, canonical_ofNat_mod _⟩

/-! ### Arrays and lists -/

theorem ofCoefs_toList {l : List Coef} (h : l.length = 256) : (ofCoefs l).toList = l := by
  show (l ++ List.replicate 256 0#12).take 256 = l
  rw [← h, List.take_left]

theorem ofCoefs_self (f : RingElt) : ofCoefs f.toList = f := by
  rw [← Vector.toList_inj]
  exact ofCoefs_toList f.length_toList

/-- Every coefficient of the list is canonical. -/
def CanonicalList (l : List Coef) : Prop := ∀ v ∈ l, Canonical v

theorem canonicalElt_iff (f : RingElt) : CanonicalElt f ↔ CanonicalList f.toList := by
  constructor
  · intro h v hv
    obtain ⟨i, hi, rfl⟩ := List.getElem_of_mem hv
    have hi' : i < 256 := by simpa using hi
    simpa using h ⟨i, hi'⟩
  · intro h i
    exact h _ (by simp)

theorem canonical_zero : Canonical 0#12 := by
  rw [Canonical]
  decide

theorem ofCoefs_canonical {l : List Coef} (h : CanonicalList l) : CanonicalElt (ofCoefs l) := by
  rw [canonicalElt_iff]
  intro v hv
  have hv' : v ∈ (l ++ List.replicate 256 0#12).take 256 := hv
  rcases List.mem_append.mp (List.mem_of_mem_take hv') with h1 | h1
  · exact h v h1
  · rw [List.eq_of_mem_replicate h1]
    exact canonical_zero

theorem zipWith_canonical {op : Coef → Coef → Coef} (hop : ∀ a b, Canonical (op a b)) (l m : List Coef) :
    CanonicalList (List.zipWith op l m) := by
  intro v hv
  rw [List.zipWith_eq_zipWith_take_min] at hv
  obtain ⟨i, hi, rfl⟩ := List.getElem_of_mem hv
  rw [List.getElem_zipWith]
  exact hop _ _

theorem map_canonical {op : Coef → Coef} (hop : ∀ a, Canonical (op a)) (l : List Coef) : CanonicalList (l.map op) := by
  intro v hv
  obtain ⟨a, -, rfl⟩ := List.mem_map.mp hv
  exact hop a

theorem CanonicalList.append {l m : List Coef} (hl : CanonicalList l) (hm : CanonicalList m) : CanonicalList (l ++ m) :=
  fun v hv => (List.mem_append.mp hv).elim (hl v) (hm v)

theorem nttBlocks_canonical (len : Nat) : ∀ blocks z g, CanonicalList (nttBlocks len blocks z g)
  | 0, _, _ => by simp [nttBlocks, CanonicalList]
  | blocks + 1, z, g =>
    ((zipWith_canonical maddq_canonical _ _).append (zipWith_canonical msubq_canonical _ _)).append
      (nttBlocks_canonical len blocks (z + 1) (g.drop (2 * len)))

theorem inttBlocks_canonical (len : Nat) : ∀ blocks z g, CanonicalList (inttBlocks len blocks z g)
  | 0, _, _ => by simp [inttBlocks, CanonicalList]
  | blocks + 1, z, g =>
    ((zipWith_canonical maddq_canonical _ _).append (zipWith_canonical (fun _ _ => mm_canonical _ _) _ _)).append
      (inttBlocks_canonical len blocks (z - 1) (g.drop (2 * len)))

theorem pairProducts_canonical : ∀ i f g, CanonicalList (pairProducts i f g)
  | i, a0 :: a1 :: f, b0 :: b1 :: g => by
    intro v hv
    rcases List.mem_cons.mp hv with rfl | hv
    · exact (pairProduct_canonical i a0 a1 b0 b1).1
    rcases List.mem_cons.mp hv with rfl | hv
    · exact (pairProduct_canonical i a0 a1 b0 b1).2
    exact pairProducts_canonical (i + 1) f g v hv
  | _, [], _ => by simp [pairProducts, CanonicalList]
  | _, [_], _ => by simp [pairProducts, CanonicalList]
  | _, _ :: _ :: _, [] => by simp [pairProducts, CanonicalList]
  | _, _ :: _ :: _, [_] => by simp [pairProducts, CanonicalList]

/-! ### R130 (e): every ring function gives canonical coefficients -/

theorem ringAdd_canonical (f g : RingElt) : CanonicalElt (ringAdd f g) :=
  ofCoefs_canonical (zipWith_canonical maddq_canonical _ _)

theorem ringSub_canonical (f g : RingElt) : CanonicalElt (ringSub f g) :=
  ofCoefs_canonical (zipWith_canonical msubq_canonical _ _)

theorem ringZero_canonical : CanonicalElt ringZero := by
  intro i
  simpa [ringZero] using canonical_zero

theorem ntt_canonical (f : RingElt) : CanonicalElt (ntt f) := ofCoefs_canonical (nttBlocks_canonical _ _ _ _)

theorem intt_canonical (f : RingElt) : CanonicalElt (intt f) := ofCoefs_canonical (map_canonical (fun _ => mm_canonical _ _) _)

theorem baseMul_canonical (f g : RingElt) : CanonicalElt (baseMul f g) := ofCoefs_canonical (pairProducts_canonical _ _ _)

/-! ### Lengths -/

theorem nttBlocks_length (len : Nat) : ∀ blocks z g, g.length = blocks * (2 * len) →
    (nttBlocks len blocks z g).length = blocks * (2 * len)
  | 0, _, _, _ => by simp [nttBlocks]
  | blocks + 1, z, g, h => by
    have ih := nttBlocks_length len blocks (z + 1) (g.drop (2 * len)) (by
      rw [List.length_drop, h, Nat.succ_mul, Nat.add_sub_cancel])
    rw [Nat.succ_mul] at h ⊢
    simp only [nttBlocks, List.length_append, List.length_zipWith, List.length_map, List.length_take,
      List.length_drop, ih]
    omega

theorem inttBlocks_length (len : Nat) : ∀ blocks z g, g.length = blocks * (2 * len) →
    (inttBlocks len blocks z g).length = blocks * (2 * len)
  | 0, _, _, _ => by simp [inttBlocks]
  | blocks + 1, z, g, h => by
    have ih := inttBlocks_length len blocks (z - 1) (g.drop (2 * len)) (by
      rw [List.length_drop, h, Nat.succ_mul, Nat.add_sub_cancel])
    rw [Nat.succ_mul] at h ⊢
    simp only [inttBlocks, List.length_append, List.length_zipWith, List.length_take, List.length_drop, ih]
    omega

/-- The seven lengths of a layer. -/
theorem layer_length_cases {len : Nat} (h : len ∈ [128, 64, 32, 16, 8, 4, 2]) : 128 / len * (2 * len) = 256 := by
  simp only [List.mem_cons, List.not_mem_nil, or_false] at h
  rcases h with rfl | rfl | rfl | rfl | rfl | rfl | rfl <;> rfl

theorem nttLayer_length {len : Nat} (h : len ∈ [128, 64, 32, 16, 8, 4, 2]) {g : List Coef} (hg : g.length = 256) :
    (nttLayer len g).length = 256 := by
  have e := layer_length_cases h
  rw [← e]
  exact nttBlocks_length len _ _ g (hg.trans e.symm)

theorem inttLayer_length {len : Nat} (h : len ∈ [128, 64, 32, 16, 8, 4, 2]) {g : List Coef} (hg : g.length = 256) :
    (inttLayer len g).length = 256 := by
  have e := layer_length_cases h
  rw [← e]
  exact inttBlocks_length len _ _ g (hg.trans e.symm)

/-! ### The root table (R120, R121) -/

/-- The printed table is what the formula of R120 gives. -/
theorem zetaTable_formula : zetaTable = (List.range 128).map fun i => 17 ^ brv7 i * 65536 % 3329 := by decide +kernel

theorem zeta_toNat {z : Nat} (h : z < 128) : (zeta z).toNat = 17 ^ brv7 z * 65536 % 3329 := by
  have : zetaTable.getD z 0 = 17 ^ brv7 z * 65536 % 3329 := by
    rw [zetaTable_formula, List.getD_eq_getElem?_getD]
    simp [h]
  rw [zeta, this]
  exact toNat_ofNat_mod_q _

/-- A Montgomery product with a stored root is a plain multiplication by the root (R120). -/
theorem mm_zeta_toNat {z : Nat} (h : z < 128) (b : Coef) :
    (mm (zeta z) b).toNat = 17 ^ brv7 z * b.toNat % 3329 := by
  rw [mm_toNat, zeta_toNat h]
  generalize 17 ^ brv7 z = r
  have h1 : r * 65536 % 3329 * b.toNat * 169 ≡ r * 65536 * b.toNat * 169 [MOD 3329] :=
    ((Nat.mod_modEq (r * 65536) 3329).mul_right b.toNat).mul_right 169
  have h2 : r * 65536 * b.toNat * 169 = r * b.toNat + 3329 * (3327 * (r * b.toNat)) := by ring
  rw [h1, h2, Nat.add_mul_mod_self_left]

end Sys2Proof.Machine
end

