-- ==== Sys2Proof/Laws/Ring.lean ====
section
/-! SUPPORT. The functions on whole ring elements, coefficient by coefficient (`42_polynomial.md` rules R131, R132 and
R135), and the layers of the transforms pair by pair (R139). -/

namespace Sys2Proof.Machine

/-- An entry of an array made from 256 coefficients is the coefficient in that place. -/
theorem ofCoefs_get {l : List Coef} (h : l.length = 256) (i : Nat) (hi : i < 256) : (ofCoefs l)[i] = l[i] := by
  have := ofCoefs_toList h
  rw [← Vector.getElem_toList (by simpa using hi)]
  simp only [this]

theorem ringAdd_get (f g : RingElt) (i : Nat) (hi : i < 256) : (ringAdd f g)[i] = maddq f[i] g[i] := by
  rw [ringAdd, ofCoefs_get (by simp)]
  simp

theorem ringSub_get (f g : RingElt) (i : Nat) (hi : i < 256) : (ringSub f g)[i] = msubq f[i] g[i] := by
  rw [ringSub, ofCoefs_get (by simp)]
  simp

theorem pairProducts_length : ∀ (n i : Nat) (f g : List Coef), f.length = 2 * n → g.length = 2 * n →
    (pairProducts i f g).length = 2 * n
  | 0, _, [], [], _, _ => rfl
  | n + 1, i, a0 :: a1 :: f, b0 :: b1 :: g, hf, hg => by
    simp only [List.length_cons] at hf hg
    simp only [pairProducts, List.length_cons, pairProducts_length n (i + 1) f g (by omega) (by omega)]
    omega

/-- Pair `k` of the products from pair `i` on. -/
theorem pairProducts_get : ∀ (n i : Nat) (f g : List Coef), f.length = 2 * n → g.length = 2 * n → ∀ k < n,
    ((pairProducts i f g).getD (2 * k) 0#12, (pairProducts i f g).getD (2 * k + 1) 0#12) =
      pairProduct (i + k) (f.getD (2 * k) 0#12) (f.getD (2 * k + 1) 0#12) (g.getD (2 * k) 0#12)
        (g.getD (2 * k + 1) 0#12)
  | n + 1, i, a0 :: a1 :: f, b0 :: b1 :: g, hf, hg, 0, _ => by simp [pairProducts]
  | n + 1, i, a0 :: a1 :: f, b0 :: b1 :: g, hf, hg, k + 1, hk => by
    simp only [List.length_cons] at hf hg
    have := pairProducts_get n (i + 1) f g (by omega) (by omega) k (by omega)
    simpa [pairProducts, Nat.mul_add, Nat.add_assoc, Nat.add_comm 1 k] using this

theorem baseMul_get (f g : RingElt) (k : Nat) (hk : k < 128) :
    ((baseMul f g)[2 * k], (baseMul f g)[2 * k + 1]) =
      pairProduct k f[2 * k] f[2 * k + 1] g[2 * k] g[2 * k + 1] := by
  have hl := pairProducts_length 128 0 f.toList g.toList (by simp) (by simp)
  have := pairProducts_get 128 0 f.toList g.toList (by simp) (by simp) k hk
  rw [baseMul, ofCoefs_get hl, ofCoefs_get hl]
  rw [Nat.zero_add] at this
  simpa [List.getD_eq_getElem?_getD, hl, show 2 * k < 256 by omega, show 2 * k + 1 < 256 by omega] using this

/-! ### The layers -/

/-- Two blocks of length `len` and a tail: the entries of the blocks, and of the tail. -/
theorem getD_blocks {len : Nat} {a b r : List Coef} (ha : a.length = len) (hb : b.length = len) :
    (∀ j < len, (a ++ b ++ r).getD j 0#12 = a.getD j 0#12) ∧
    (∀ j < len, (a ++ b ++ r).getD (j + len) 0#12 = b.getD j 0#12) ∧
    ∀ j, (a ++ b ++ r).getD (2 * len + j) 0#12 = r.getD j 0#12 := by
  refine ⟨fun j hj => ?_, fun j hj => ?_, fun j => ?_⟩
  · rw [List.append_assoc, List.getD_append _ _ _ _ (by omega)]
  · rw [List.append_assoc, List.getD_append_right _ _ _ _ (by omega), List.getD_append _ _ _ _ (by omega)]
    congr 1
    omega
  · rw [List.getD_append_right _ _ _ _ (by simp; omega)]
    congr 1
    simp
    omega

theorem getD_zipWith {op : Coef → Coef → Coef} {a b : List Coef} {j : Nat} (ha : j < a.length) (hb : j < b.length) :
    (List.zipWith op a b).getD j 0#12 = op (a.getD j 0#12) (b.getD j 0#12) := by
  simp [List.getD_eq_getElem?_getD, ha, hb]

theorem getD_take {a : List Coef} {j n : Nat} (hj : j < n) : (a.take n).getD j 0#12 = a.getD j 0#12 := by
  simp [List.getD_eq_getElem?_getD, hj]

theorem getD_drop (a : List Coef) (j n : Nat) : (a.drop n).getD j 0#12 = a.getD (n + j) 0#12 := by
  simp [List.getD_eq_getElem?_getD]

theorem getD_map {f : Coef → Coef} {a : List Coef} {j : Nat} (hj : j < a.length) :
    (a.map f).getD j 0#12 = f (a.getD j 0#12) := by
  simp [List.getD_eq_getElem?_getD, hj]

/-- Entry `j` of block `k` of a forward layer and the entry `len` above it: the butterfly with root `z + k`. -/
theorem nttBlocks_get (len : Nat) : ∀ blocks z g, g.length = blocks * (2 * len) → ∀ k < blocks, ∀ j < len,
    ((nttBlocks len blocks z g).getD (k * (2 * len) + j) 0#12,
      (nttBlocks len blocks z g).getD (k * (2 * len) + j + len) 0#12) =
      bfctPair (z + k) (g.getD (k * (2 * len) + j) 0#12) (g.getD (k * (2 * len) + j + len) 0#12)
  | blocks + 1, z, g, hg, 0, _, j, hj => by
    rw [Nat.succ_mul] at hg
    have hl : (g.take len).length = len := by simp; omega
    have ht : (((g.drop len).take len).map (mm (zeta z))).length = len := by simp; omega
    have h := getD_blocks (r := nttBlocks len blocks (z + 1) (g.drop (2 * len)))
      (by simp; omega : (List.zipWith maddq (g.take len) (((g.drop len).take len).map (mm (zeta z)))).length = len)
      (by simp; omega : (List.zipWith msubq (g.take len) (((g.drop len).take len).map (mm (zeta z)))).length = len)
    rw [Nat.zero_mul, Nat.zero_add, nttBlocks, h.1 j hj, h.2.1 j hj, getD_zipWith (by omega) (by omega),
      getD_zipWith (by omega) (by omega), getD_map (by simp; omega), getD_take hj, getD_take hj, getD_drop,
      Nat.add_comm len j]
    rfl
  | blocks + 1, z, g, hg, k + 1, hk, j, hj => by
    rw [Nat.succ_mul] at hg
    have h := getD_blocks (r := nttBlocks len blocks (z + 1) (g.drop (2 * len)))
      (by simp; omega : (List.zipWith maddq (g.take len) (((g.drop len).take len).map (mm (zeta z)))).length = len)
      (by simp; omega : (List.zipWith msubq (g.take len) (((g.drop len).take len).map (mm (zeta z)))).length = len)
    have ih := nttBlocks_get len blocks (z + 1) (g.drop (2 * len)) (by simp; omega) k (by omega) j hj
    rw [getD_drop, getD_drop] at ih
    rw [Nat.succ_mul, Nat.add_comm (k * (2 * len)), Nat.add_assoc, Nat.add_assoc, nttBlocks, h.2.2, h.2.2]
    rw [Nat.add_assoc z, Nat.add_comm 1 k] at ih
    exact ih

/-- Entry `j` of block `k` of an inverse layer and the entry `len` above it: the butterfly with root `z - k`. -/
theorem inttBlocks_get (len : Nat) : ∀ blocks z g, g.length = blocks * (2 * len) → ∀ k < blocks, ∀ j < len,
    ((inttBlocks len blocks z g).getD (k * (2 * len) + j) 0#12,
      (inttBlocks len blocks z g).getD (k * (2 * len) + j + len) 0#12) =
      bfgsPair (z - k) (g.getD (k * (2 * len) + j) 0#12) (g.getD (k * (2 * len) + j + len) 0#12)
  | blocks + 1, z, g, hg, 0, _, j, hj => by
    rw [Nat.succ_mul] at hg
    have hl : (g.take len).length = len := by simp; omega
    have ht : ((g.drop len).take len).length = len := by simp; omega
    have h := getD_blocks (r := inttBlocks len blocks (z - 1) (g.drop (2 * len)))
      (by simp; omega : (List.zipWith maddq (g.take len) ((g.drop len).take len)).length = len)
      (by simp; omega : (List.zipWith (fun t h => mm (zeta z) (msubq h t)) (g.take len)
        ((g.drop len).take len)).length = len)
    rw [Nat.zero_mul, Nat.zero_add, inttBlocks, h.1 j hj, h.2.1 j hj, getD_zipWith (by omega) (by omega),
      getD_zipWith (by omega) (by omega), getD_take hj, getD_take hj, getD_drop, Nat.add_comm len j]
    rfl
  | blocks + 1, z, g, hg, k + 1, hk, j, hj => by
    rw [Nat.succ_mul] at hg
    have h := getD_blocks (r := inttBlocks len blocks (z - 1) (g.drop (2 * len)))
      (by simp; omega : (List.zipWith maddq (g.take len) ((g.drop len).take len)).length = len)
      (by simp; omega : (List.zipWith (fun t h => mm (zeta z) (msubq h t)) (g.take len)
        ((g.drop len).take len)).length = len)
    have ih := inttBlocks_get len blocks (z - 1) (g.drop (2 * len)) (by simp; omega) k (by omega) j hj
    rw [getD_drop, getD_drop, Nat.sub_sub, Nat.add_comm 1 k] at ih
    rw [Nat.succ_mul, Nat.add_comm (k * (2 * len)), Nat.add_assoc, Nat.add_assoc, inttBlocks, h.2.2, h.2.2]
    exact ih

end Sys2Proof.Machine
end

