-- ==== Sys2Proof/Laws/Loop.lean ====
section
/-! SUPPORT. The printed loops of the transforms, pass by pass: one layer of in-place butterflies is the layer by whole
blocks (`42_polynomial.md` rules R133, R134 and R139). -/

namespace Sys2Proof.Machine

/-- The two coefficients at `j` and `j + len`. -/
def pairAt (len j : Nat) (g : List Coef) : Coef × Coef := (g.getD j 0#12, g.getD (j + len) 0#12)

/-- One pass of the inner loop body replaces the pair at `j` by `F` of it and touches nothing else. -/
structure ActsOnPair (len : Nat) (F : Coef × Coef → Coef × Coef) (j : Nat) (g h : List Coef) : Prop where
  length_eq : h.length = g.length
  pair_eq : pairAt len j h = F (pairAt len j g)
  other_eq : ∀ x, x ≠ j → x ≠ j + len → h.getD x 0#12 = g.getD x 0#12

theorem getD_set_same {g : List Coef} {i : Nat} (v : Coef) (hi : i < g.length) : (g.set i v).getD i 0#12 = v := by
  simp [List.getD_eq_getElem?_getD, hi]

theorem getD_set_other {g : List Coef} {i x : Nat} (v : Coef) (h : x ≠ i) :
    (g.set i v).getD x 0#12 = g.getD x 0#12 := by
  simp [List.getD_eq_getElem?_getD, List.getElem?_set_ne (Ne.symm h)]

theorem nttStep_acts {len j : Nat} (z : Nat) {g : List Coef} (hl : 0 < len) (hj : j + len < g.length) :
    ActsOnPair len (fun p => bfctPair z p.1 p.2) j g (nttStep z len j g) where
  length_eq := by simp [nttStep]
  pair_eq := by
    simp only [pairAt, nttStep]
    rw [getD_set_same _ (by simp; omega), getD_set_other _ (by omega), getD_set_same _ hj]
    rfl
  other_eq x h1 h2 := by
    simp only [nttStep]
    rw [getD_set_other _ h1, getD_set_other _ h2]

theorem inttStep_acts {len j : Nat} (z : Nat) {g : List Coef} (hl : 0 < len) (hj : j + len < g.length) :
    ActsOnPair len (fun p => bfgsPair z p.1 p.2) j g (inttStep z len j g) where
  length_eq := by simp [inttStep]
  pair_eq := by
    simp only [pairAt, inttStep]
    rw [getD_set_other _ (by omega), getD_set_same _ (by omega), getD_set_same _ (by simp; omega)]
    rfl
  other_eq x h1 h2 := by
    simp only [inttStep]
    rw [getD_set_other _ h2, getD_set_other _ h1]

/-- Different pairs of a layer have no place in common. -/
theorem pairs_disjoint {len k b i j : Nat} (hi : i < len) (hj : j < len) (h : (k, j) ≠ (b, i)) :
    2 * len * k + j ≠ 2 * len * b + i ∧ 2 * len * k + j ≠ 2 * len * b + i + len ∧
    2 * len * k + j + len ≠ 2 * len * b + i ∧ 2 * len * k + j + len ≠ 2 * len * b + i + len := by
  rcases Nat.lt_trichotomy k b with hk | rfl | hk
  · have := Nat.mul_le_mul_left (2 * len) (Nat.succ_le_of_lt hk)
    rw [Nat.mul_succ] at this
    omega
  · have : j ≠ i := fun e => h (by rw [e])
    omega
  · have := Nat.mul_le_mul_left (2 * len) (Nat.succ_le_of_lt hk)
    rw [Nat.mul_succ] at this
    omega

theorem ActsOnPair.pairAt_other {len k b i j : Nat} {F : Coef × Coef → Coef × Coef} {g h : List Coef}
    (hb : ActsOnPair len F (2 * len * b + i) g h) (hi : i < len) (hj : j < len) (hn : (k, j) ≠ (b, i)) :
    pairAt len (2 * len * k + j) h = pairAt len (2 * len * k + j) g := by
  have := pairs_disjoint hi hj hn
  simp only [pairAt]
  rw [hb.other_eq _ this.1 this.2.1, hb.other_eq _ this.2.2.1 this.2.2.2]

section

variable {len blocks : Nat} (F : Nat → Coef × Coef → Coef × Coef) (step : Nat → Nat → List Coef → List Coef)
  (hstep : ∀ z j g, j + len < g.length → ActsOnPair len (F z) j g (step z j g))

include hstep

/-- The inner loop over block `b`, its first `m` passes. -/
theorem inner_loop {g : List Coef} (hg : g.length = 2 * len * blocks) (z : Nat) {b : Nat} (hb : b < blocks) :
    ∀ m ≤ len,
      ((List.range m).foldl (fun g i => step z (2 * len * b + i) g) g).length = g.length ∧
      ∀ k, ∀ j < len, pairAt len (2 * len * k + j) ((List.range m).foldl (fun g i => step z (2 * len * b + i) g) g) =
        if k = b ∧ j < m then F z (pairAt len (2 * len * k + j) g) else pairAt len (2 * len * k + j) g
  | 0, _ => ⟨rfl, fun k j _ => by simp⟩
  | m + 1, hm => by
    obtain ⟨hl, hp⟩ := inner_loop hg z hb m (by omega)
    have hlast : 2 * len * b + m + len < 2 * len * blocks := by
      have := Nat.mul_le_mul_left (2 * len) (Nat.succ_le_of_lt hb)
      rw [Nat.mul_succ] at this
      omega
    rw [List.range_succ, List.foldl_append, List.foldl_cons, List.foldl_nil]
    have ha := hstep z (2 * len * b + m) _ (by rw [hl, hg]; exact hlast)
    refine ⟨ha.length_eq.trans hl, fun k j hj => ?_⟩
    by_cases h : (k, j) = (b, m)
    · cases h
      rw [ha.pair_eq, hp b m hj, if_neg (by omega), if_pos (by omega)]
    · rw [ha.pairAt_other (by omega) hj h, hp k j hj]
      have : (k = b ∧ j < m) ↔ (k = b ∧ j < m + 1) := by
        constructor
        · omega
        · rintro ⟨rfl, hj'⟩
          have : j ≠ m := fun e => h (by rw [e])
          omega
      simp only [this]

/-- The loop over the blocks, its first `b` passes, with the running counter. -/
theorem outer_loop {g : List Coef} (hg : g.length = 2 * len * blocks) (next : Nat → Nat) (zs : Nat → Nat)
    (hz : ∀ k, zs (k + 1) = next (zs k)) : ∀ b ≤ blocks,
      let r := (List.range b).foldl (fun gk b =>
        ((List.range len).foldl (fun g i => step gk.2 (2 * len * b + i) g) gk.1, next gk.2)) (g, zs 0)
      r.2 = zs b ∧ r.1.length = g.length ∧ ∀ k, ∀ j < len, pairAt len (2 * len * k + j) r.1 =
        if k < b then F (zs k) (pairAt len (2 * len * k + j) g) else pairAt len (2 * len * k + j) g
  | 0, _ => ⟨rfl, rfl, fun k j _ => by simp⟩
  | b + 1, hb => by
    obtain ⟨h2, hl, hp⟩ := outer_loop hg next zs hz b (by omega)
    simp only [List.range_succ, List.foldl_append, List.foldl_cons, List.foldl_nil] at h2 hl hp ⊢
    rw [h2]
    obtain ⟨hl', hp'⟩ := inner_loop F step hstep (hl.trans hg) (zs b) (Nat.lt_of_succ_le hb) len (Nat.le_refl _)
    refine ⟨(hz b).symm, hl'.trans hl, fun k j hj => ?_⟩
    rw [hp' k j hj, hp k j hj]
    by_cases h : k = b
    · subst h
      simp [hj]
    · have : k < b + 1 ↔ k < b := by omega
      simp [h, this]

end

/-- Lists of whole blocks are equal when their pairs are. -/
theorem eq_of_pairs {len blocks : Nat} (hpos : 0 < len) {g h : List Coef} (hg : g.length = 2 * len * blocks)
    (hh : h.length = 2 * len * blocks)
    (hp : ∀ k < blocks, ∀ j < len, pairAt len (2 * len * k + j) g = pairAt len (2 * len * k + j) h) : g = h := by
  refine List.ext_getElem (hg.trans hh.symm) fun x hx hx' => ?_
  have hd : g.getD x 0#12 = h.getD x 0#12 := by
    have hx2 := Nat.div_add_mod x (2 * len)
    have hm := Nat.mod_lt x (show 0 < 2 * len by omega)
    have hk : x / (2 * len) < blocks := Nat.div_lt_of_lt_mul (by rw [← hg]; exact hx)
    by_cases hl : x % (2 * len) < len
    · have := congrArg Prod.fst (hp _ hk _ hl)
      simpa only [pairAt, hx2] using this
    · have := congrArg Prod.snd (hp _ hk (x % (2 * len) - len) (by omega))
      simp only [pairAt] at this
      rwa [show 2 * len * (x / (2 * len)) + (x % (2 * len) - len) + len = x by omega] at this
  simpa [List.getD_eq_getElem?_getD, hx, hx'] using hd

theorem layer_pos {len : Nat} (h : len ∈ [128, 64, 32, 16, 8, 4, 2]) : 0 < len := by
  fin_cases h <;> decide

/-- One layer of R133's printed loop: the layer by blocks, the counter moved on by the number of blocks. -/
theorem nttLayer_loop {len : Nat} (h : len ∈ [128, 64, 32, 16, 8, 4, 2]) {g : List Coef} (hg : g.length = 256) :
    (List.range (128 / len)).foldl (fun (gk : List Coef × Nat) b =>
      ((List.range len).foldl (fun g i => nttStep gk.2 len (2 * len * b + i) g) gk.1, gk.2 + 1)) (g, 128 / len) =
    (nttLayer len g, 128 / len + 128 / len) := by
  have hpos : 0 < len := layer_pos h
  have hb := layer_length_cases h
  have hg' : g.length = 2 * len * (128 / len) := by rw [hg, Nat.mul_comm, hb]
  obtain ⟨h2, hl, hp⟩ := outer_loop (fun z p => bfctPair z p.1 p.2) (fun z j g => nttStep z len j g)
    (fun z j g hj => nttStep_acts z hpos hj) hg' (· + 1) (128 / len + ·) (fun _ => rfl) (128 / len) (Nat.le_refl _)
  refine Prod.ext (eq_of_pairs hpos (hl.trans hg') ?_ fun k hk j hj => ?_) h2
  · rw [nttLayer_length h hg, Nat.mul_comm, hb]
  · refine (hp k j hj).trans ?_
    rw [if_pos hk]
    have := nttBlocks_get len (128 / len) (128 / len) g (by rw [hg, hb]) k hk j hj
    rw [Nat.mul_comm k] at this
    exact this.symm

/-- One layer of R134's printed loop: the layer by blocks, the counter moved back by the number of blocks. -/
theorem inttLayer_loop {len : Nat} (h : len ∈ [128, 64, 32, 16, 8, 4, 2]) {g : List Coef} (hg : g.length = 256) :
    (List.range (128 / len)).foldl (fun (gk : List Coef × Nat) b =>
      ((List.range len).foldl (fun g i => inttStep gk.2 len (2 * len * b + i) g) gk.1, gk.2 - 1)) (g, 256 / len - 1) =
    (inttLayer len g, 256 / len - 1 - 128 / len) := by
  have hpos : 0 < len := layer_pos h
  have hb := layer_length_cases h
  have hg' : g.length = 2 * len * (128 / len) := by rw [hg, Nat.mul_comm, hb]
  obtain ⟨h2, hl, hp⟩ := outer_loop (fun z p => bfgsPair z p.1 p.2) (fun z j g => inttStep z len j g)
    (fun z j g hj => inttStep_acts z hpos hj) hg' (· - 1) (256 / len - 1 - ·) (fun _ => by omega) (128 / len)
    (Nat.le_refl _)
  refine Prod.ext (eq_of_pairs hpos (hl.trans hg') ?_ fun k hk j hj => ?_) h2
  · rw [inttLayer_length h hg, Nat.mul_comm, hb]
  · refine (hp k j hj).trans ?_
    rw [if_pos hk]
    have := inttBlocks_get len (128 / len) (256 / len - 1) g (by rw [hg, hb]) k hk j hj
    rw [Nat.mul_comm k] at this
    exact this.symm

end Sys2Proof.Machine
end

