-- ==== Sys2Proof/Laws/State.lean ====
section
/-! SUPPORT. One lemma per field and update: what each field of an updated state is. A proof cites these and never unfolds
a record update. -/

namespace Sys2Proof.Machine

variable (s : State)

/-! ### `State.setC` -/

@[simp] theorem State.setC_c (i : CReg) (v : Coef) : (s.setC i v).c = s.c.set i v := rfl
@[simp] theorem State.setC_coef (i : CReg) (v : Coef) : (s.setC i v).coef = s.coef := rfl
@[simp] theorem State.setC_tag (i : CReg) (v : Coef) : (s.setC i v).tag = s.tag := rfl
@[simp] theorem State.setC_ka (i : CReg) (v : Coef) : (s.setC i v).ka = s.ka := rfl
@[simp] theorem State.setC_kb (i : CReg) (v : Coef) : (s.setC i v).kb = s.kb := rfl
@[simp] theorem State.setC_kout (i : CReg) (v : Coef) : (s.setC i v).kout = s.kout := rfl
@[simp] theorem State.setC_cmpa (i : CReg) (v : Coef) : (s.setC i v).cmpa = s.cmpa := rfl
@[simp] theorem State.setC_cmpb (i : CReg) (v : Coef) : (s.setC i v).cmpb = s.cmpb := rfl
@[simp] theorem State.setC_diff (i : CReg) (v : Coef) : (s.setC i v).diff = s.diff := rfl
@[simp] theorem State.setC_pend (i : CReg) (v : Coef) : (s.setC i v).pend = s.pend := rfl
@[simp] theorem State.setC_err (i : CReg) (v : Coef) : (s.setC i v).err = s.err := rfl
@[simp] theorem State.setC_faddr (i : CReg) (v : Coef) : (s.setC i v).faddr = s.faddr := rfl
@[simp] theorem State.setC_fdata (i : CReg) (v : Coef) : (s.setC i v).fdata = s.fdata := rfl
@[simp] theorem State.setC_events (i : CReg) (v : Coef) : (s.setC i v).events = s.events := rfl
@[simp] theorem State.setC_replies (i : CReg) (v : Coef) : (s.setC i v).replies = s.replies := rfl

/-! ### `State.setSlot` -/

@[simp] theorem State.setSlot_c (p : Slot) (f : RingElt) : (s.setSlot p f).c = s.c := rfl
@[simp] theorem State.setSlot_coef (p : Slot) (f : RingElt) : (s.setSlot p f).coef = s.coef.set p f := rfl
@[simp] theorem State.setSlot_tag (p : Slot) (f : RingElt) : (s.setSlot p f).tag = s.tag := rfl
@[simp] theorem State.setSlot_ka (p : Slot) (f : RingElt) : (s.setSlot p f).ka = s.ka := rfl
@[simp] theorem State.setSlot_kb (p : Slot) (f : RingElt) : (s.setSlot p f).kb = s.kb := rfl
@[simp] theorem State.setSlot_kout (p : Slot) (f : RingElt) : (s.setSlot p f).kout = s.kout := rfl
@[simp] theorem State.setSlot_cmpa (p : Slot) (f : RingElt) : (s.setSlot p f).cmpa = s.cmpa := rfl
@[simp] theorem State.setSlot_cmpb (p : Slot) (f : RingElt) : (s.setSlot p f).cmpb = s.cmpb := rfl
@[simp] theorem State.setSlot_diff (p : Slot) (f : RingElt) : (s.setSlot p f).diff = s.diff := rfl
@[simp] theorem State.setSlot_pend (p : Slot) (f : RingElt) : (s.setSlot p f).pend = s.pend := rfl
@[simp] theorem State.setSlot_err (p : Slot) (f : RingElt) : (s.setSlot p f).err = s.err := rfl
@[simp] theorem State.setSlot_faddr (p : Slot) (f : RingElt) : (s.setSlot p f).faddr = s.faddr := rfl
@[simp] theorem State.setSlot_fdata (p : Slot) (f : RingElt) : (s.setSlot p f).fdata = s.fdata := rfl
@[simp] theorem State.setSlot_events (p : Slot) (f : RingElt) : (s.setSlot p f).events = s.events := rfl
@[simp] theorem State.setSlot_replies (p : Slot) (f : RingElt) : (s.setSlot p f).replies = s.replies := rfl

/-! ### `State.setCoef` -/

@[simp] theorem State.setCoef_c (p : Slot) (i : CoefIdx) (v : Coef) : (s.setCoef p i v).c = s.c := rfl
@[simp] theorem State.setCoef_coef (p : Slot) (i : CoefIdx) (v : Coef) : (s.setCoef p i v).coef = s.coef.set p (s.coef[p].set i v) := rfl
@[simp] theorem State.setCoef_tag (p : Slot) (i : CoefIdx) (v : Coef) : (s.setCoef p i v).tag = s.tag := rfl
@[simp] theorem State.setCoef_ka (p : Slot) (i : CoefIdx) (v : Coef) : (s.setCoef p i v).ka = s.ka := rfl
@[simp] theorem State.setCoef_kb (p : Slot) (i : CoefIdx) (v : Coef) : (s.setCoef p i v).kb = s.kb := rfl
@[simp] theorem State.setCoef_kout (p : Slot) (i : CoefIdx) (v : Coef) : (s.setCoef p i v).kout = s.kout := rfl
@[simp] theorem State.setCoef_cmpa (p : Slot) (i : CoefIdx) (v : Coef) : (s.setCoef p i v).cmpa = s.cmpa := rfl
@[simp] theorem State.setCoef_cmpb (p : Slot) (i : CoefIdx) (v : Coef) : (s.setCoef p i v).cmpb = s.cmpb := rfl
@[simp] theorem State.setCoef_diff (p : Slot) (i : CoefIdx) (v : Coef) : (s.setCoef p i v).diff = s.diff := rfl
@[simp] theorem State.setCoef_pend (p : Slot) (i : CoefIdx) (v : Coef) : (s.setCoef p i v).pend = s.pend := rfl
@[simp] theorem State.setCoef_err (p : Slot) (i : CoefIdx) (v : Coef) : (s.setCoef p i v).err = s.err := rfl
@[simp] theorem State.setCoef_faddr (p : Slot) (i : CoefIdx) (v : Coef) : (s.setCoef p i v).faddr = s.faddr := rfl
@[simp] theorem State.setCoef_fdata (p : Slot) (i : CoefIdx) (v : Coef) : (s.setCoef p i v).fdata = s.fdata := rfl
@[simp] theorem State.setCoef_events (p : Slot) (i : CoefIdx) (v : Coef) : (s.setCoef p i v).events = s.events := rfl
@[simp] theorem State.setCoef_replies (p : Slot) (i : CoefIdx) (v : Coef) : (s.setCoef p i v).replies = s.replies := rfl

/-! ### `State.setTag` -/

@[simp] theorem State.setTag_c (p : Slot) (b : Bool) : (s.setTag p b).c = s.c := rfl
@[simp] theorem State.setTag_coef (p : Slot) (b : Bool) : (s.setTag p b).coef = s.coef := rfl
@[simp] theorem State.setTag_ka (p : Slot) (b : Bool) : (s.setTag p b).ka = s.ka := rfl
@[simp] theorem State.setTag_kb (p : Slot) (b : Bool) : (s.setTag p b).kb = s.kb := rfl
@[simp] theorem State.setTag_kout (p : Slot) (b : Bool) : (s.setTag p b).kout = s.kout := rfl
@[simp] theorem State.setTag_cmpa (p : Slot) (b : Bool) : (s.setTag p b).cmpa = s.cmpa := rfl
@[simp] theorem State.setTag_cmpb (p : Slot) (b : Bool) : (s.setTag p b).cmpb = s.cmpb := rfl
@[simp] theorem State.setTag_diff (p : Slot) (b : Bool) : (s.setTag p b).diff = s.diff := rfl
@[simp] theorem State.setTag_pend (p : Slot) (b : Bool) : (s.setTag p b).pend = s.pend := rfl
@[simp] theorem State.setTag_err (p : Slot) (b : Bool) : (s.setTag p b).err = s.err := rfl
@[simp] theorem State.setTag_faddr (p : Slot) (b : Bool) : (s.setTag p b).faddr = s.faddr := rfl
@[simp] theorem State.setTag_fdata (p : Slot) (b : Bool) : (s.setTag p b).fdata = s.fdata := rfl
@[simp] theorem State.setTag_events (p : Slot) (b : Bool) : (s.setTag p b).events = s.events := rfl
@[simp] theorem State.setTag_replies (p : Slot) (b : Bool) : (s.setTag p b).replies = s.replies := rfl

/-! ### `State.raise` -/

@[simp] theorem State.raise_c (x : Cause) (off : Offset) (v : Word) : (s.raise x off v).c = s.c := rfl
@[simp] theorem State.raise_coef (x : Cause) (off : Offset) (v : Word) : (s.raise x off v).coef = s.coef := rfl
@[simp] theorem State.raise_tag (x : Cause) (off : Offset) (v : Word) : (s.raise x off v).tag = s.tag := rfl
@[simp] theorem State.raise_ka (x : Cause) (off : Offset) (v : Word) : (s.raise x off v).ka = s.ka := rfl
@[simp] theorem State.raise_kb (x : Cause) (off : Offset) (v : Word) : (s.raise x off v).kb = s.kb := rfl
@[simp] theorem State.raise_kout (x : Cause) (off : Offset) (v : Word) : (s.raise x off v).kout = s.kout := rfl
@[simp] theorem State.raise_cmpa (x : Cause) (off : Offset) (v : Word) : (s.raise x off v).cmpa = s.cmpa := rfl
@[simp] theorem State.raise_cmpb (x : Cause) (off : Offset) (v : Word) : (s.raise x off v).cmpb = s.cmpb := rfl
@[simp] theorem State.raise_diff (x : Cause) (off : Offset) (v : Word) : (s.raise x off v).diff = s.diff := rfl
@[simp] theorem State.raise_pend (x : Cause) (off : Offset) (v : Word) : (s.raise x off v).pend = s.pend := rfl
@[simp] theorem State.raise_err (x : Cause) (off : Offset) (v : Word) : (s.raise x off v).err = s.err ||| x.mask := rfl
@[simp] theorem State.raise_faddr (x : Cause) (off : Offset) (v : Word) : (s.raise x off v).faddr = if s.err = 0#5 then off else s.faddr := rfl
@[simp] theorem State.raise_fdata (x : Cause) (off : Offset) (v : Word) : (s.raise x off v).fdata = if s.err = 0#5 then v else s.fdata := rfl
@[simp] theorem State.raise_events (x : Cause) (off : Offset) (v : Word) : (s.raise x off v).events = s.events := rfl
@[simp] theorem State.raise_replies (x : Cause) (off : Offset) (v : Word) : (s.raise x off v).replies = s.replies := rfl

/-! ### `State.acknowledge` -/

@[simp] theorem State.acknowledge_c (v : Word) : (s.acknowledge v).c = s.c := rfl
@[simp] theorem State.acknowledge_coef (v : Word) : (s.acknowledge v).coef = s.coef := rfl
@[simp] theorem State.acknowledge_tag (v : Word) : (s.acknowledge v).tag = s.tag := rfl
@[simp] theorem State.acknowledge_ka (v : Word) : (s.acknowledge v).ka = s.ka := rfl
@[simp] theorem State.acknowledge_kb (v : Word) : (s.acknowledge v).kb = s.kb := rfl
@[simp] theorem State.acknowledge_kout (v : Word) : (s.acknowledge v).kout = s.kout := rfl
@[simp] theorem State.acknowledge_cmpa (v : Word) : (s.acknowledge v).cmpa = s.cmpa := rfl
@[simp] theorem State.acknowledge_cmpb (v : Word) : (s.acknowledge v).cmpb = s.cmpb := rfl
@[simp] theorem State.acknowledge_diff (v : Word) : (s.acknowledge v).diff = s.diff := rfl
@[simp] theorem State.acknowledge_pend (v : Word) : (s.acknowledge v).pend = s.pend := rfl
@[simp] theorem State.acknowledge_err (v : Word) : (s.acknowledge v).err = s.err &&& ~~~(v.setWidth 5) := rfl
@[simp] theorem State.acknowledge_faddr (v : Word) : (s.acknowledge v).faddr = s.faddr := rfl
@[simp] theorem State.acknowledge_fdata (v : Word) : (s.acknowledge v).fdata = s.fdata := rfl
@[simp] theorem State.acknowledge_events (v : Word) : (s.acknowledge v).events = s.events := rfl
@[simp] theorem State.acknowledge_replies (v : Word) : (s.acknowledge v).replies = s.replies := rfl

/-! ### `State.retire` -/

@[simp] theorem State.retire_c : (s.retire).c = s.c := rfl
@[simp] theorem State.retire_coef : (s.retire).coef = s.coef := rfl
@[simp] theorem State.retire_tag : (s.retire).tag = s.tag := rfl
@[simp] theorem State.retire_ka : (s.retire).ka = s.ka := rfl
@[simp] theorem State.retire_kb : (s.retire).kb = s.kb := rfl
@[simp] theorem State.retire_kout : (s.retire).kout = s.kout := rfl
@[simp] theorem State.retire_cmpa : (s.retire).cmpa = s.cmpa := rfl
@[simp] theorem State.retire_cmpb : (s.retire).cmpb = s.cmpb := rfl
@[simp] theorem State.retire_diff : (s.retire).diff = s.diff := rfl
@[simp] theorem State.retire_pend : (s.retire).pend = none := rfl
@[simp] theorem State.retire_err : (s.retire).err = s.err := rfl
@[simp] theorem State.retire_faddr : (s.retire).faddr = s.faddr := rfl
@[simp] theorem State.retire_fdata : (s.retire).fdata = s.fdata := rfl
@[simp] theorem State.retire_events : (s.retire).events = s.events := rfl
@[simp] theorem State.retire_replies : (s.retire).replies = s.replies := rfl

/-! ### `State.withEvents` -/

@[simp] theorem State.withEvents_c (es : List Event) : (s.withEvents es).c = s.c := rfl
@[simp] theorem State.withEvents_coef (es : List Event) : (s.withEvents es).coef = s.coef := rfl
@[simp] theorem State.withEvents_tag (es : List Event) : (s.withEvents es).tag = s.tag := rfl
@[simp] theorem State.withEvents_ka (es : List Event) : (s.withEvents es).ka = s.ka := rfl
@[simp] theorem State.withEvents_kb (es : List Event) : (s.withEvents es).kb = s.kb := rfl
@[simp] theorem State.withEvents_kout (es : List Event) : (s.withEvents es).kout = s.kout := rfl
@[simp] theorem State.withEvents_cmpa (es : List Event) : (s.withEvents es).cmpa = s.cmpa := rfl
@[simp] theorem State.withEvents_cmpb (es : List Event) : (s.withEvents es).cmpb = s.cmpb := rfl
@[simp] theorem State.withEvents_diff (es : List Event) : (s.withEvents es).diff = s.diff := rfl
@[simp] theorem State.withEvents_pend (es : List Event) : (s.withEvents es).pend = s.pend := rfl
@[simp] theorem State.withEvents_err (es : List Event) : (s.withEvents es).err = s.err := rfl
@[simp] theorem State.withEvents_faddr (es : List Event) : (s.withEvents es).faddr = s.faddr := rfl
@[simp] theorem State.withEvents_fdata (es : List Event) : (s.withEvents es).fdata = s.fdata := rfl
@[simp] theorem State.withEvents_events (es : List Event) : (s.withEvents es).events = es := rfl
@[simp] theorem State.withEvents_replies (es : List Event) : (s.withEvents es).replies = s.replies := rfl

/-! ### `State.resetBlock` -/

@[simp] theorem State.resetBlock_events : s.resetBlock.events = s.events := rfl
@[simp] theorem State.resetBlock_replies : s.resetBlock.replies = s.replies := rfl
@[simp] theorem State.resetBlock_c : s.resetBlock.c = State.reset.c := rfl
@[simp] theorem State.resetBlock_coef : s.resetBlock.coef = State.reset.coef := rfl
@[simp] theorem State.resetBlock_tag : s.resetBlock.tag = State.reset.tag := rfl
@[simp] theorem State.resetBlock_ka : s.resetBlock.ka = State.reset.ka := rfl
@[simp] theorem State.resetBlock_kb : s.resetBlock.kb = State.reset.kb := rfl
@[simp] theorem State.resetBlock_kout : s.resetBlock.kout = State.reset.kout := rfl
@[simp] theorem State.resetBlock_cmpa : s.resetBlock.cmpa = State.reset.cmpa := rfl
@[simp] theorem State.resetBlock_cmpb : s.resetBlock.cmpb = State.reset.cmpb := rfl
@[simp] theorem State.resetBlock_diff : s.resetBlock.diff = State.reset.diff := rfl
@[simp] theorem State.resetBlock_pend : s.resetBlock.pend = State.reset.pend := rfl
@[simp] theorem State.resetBlock_err : s.resetBlock.err = State.reset.err := rfl
@[simp] theorem State.resetBlock_faddr : s.resetBlock.faddr = State.reset.faddr := rfl
@[simp] theorem State.resetBlock_fdata : s.resetBlock.fdata = State.reset.fdata := rfl

end Sys2Proof.Machine
end

