-- ==== Sys2Proof/Laws/Operands.lean ====
section
/-! SUPPORT. Read after write for every operand form, and the frames they make: a write gives the value written and
leaves every other place alone. -/

namespace Sys2Proof.Machine

variable (s : State)

/-! ### Scalar registers -/

@[simp] theorem State.setC_read_same (i : CReg) (v : Coef) : (s.setC i v).c[i] = v := by simp

theorem State.setC_read_other {i j : CReg} (v : Coef) (h : j ≠ i) : (s.setC i v).c[j] = s.c[j] := by
  have : i.val ≠ j.val := fun e => h (Fin.ext e.symm)
  simp [this]

theorem State.setC_onlyScalars (i : CReg) (v : Coef) : OnlyScalars [i] s (s.setC i v) :=
  ⟨rfl, fun _ hr => s.setC_read_other v (by simpa using hr)⟩

theorem State.setC_setC_onlyScalars (i j : CReg) (u v : Coef) : OnlyScalars [i, j] s ((s.setC i u).setC j v) := by
  refine ⟨rfl, fun r hr => ?_⟩
  simp only [List.mem_cons, List.not_mem_nil, or_false, not_or] at hr
  rw [State.setC_read_other _ _ hr.2, State.setC_read_other _ _ hr.1]

/-! ### Slots and coefficients -/

@[simp] theorem State.setSlot_slot_same (p : Slot) (f : RingElt) : (s.setSlot p f).slot p = f := by
  simp [State.slot]

theorem State.setSlot_slot_other {p p' : Slot} (f : RingElt) (h : p' ≠ p) : (s.setSlot p f).slot p' = s.slot p' := by
  have : p.val ≠ p'.val := fun e => h (Fin.ext e.symm)
  simp [State.slot, this]

theorem State.coefAt_eq (p : Slot) (i : CoefIdx) : s.coefAt p i = (s.slot p)[i] := rfl

theorem State.setCoef_eq_setSlot (p : Slot) (i : CoefIdx) (v : Coef) :
    s.setCoef p i v = s.setSlot p ((s.slot p).set i v) := rfl

@[simp] theorem State.setCoef_read_same (p : Slot) (i : CoefIdx) (v : Coef) : (s.setCoef p i v).coefAt p i = v := by
  rw [State.coefAt_eq, State.setCoef_eq_setSlot, State.setSlot_slot_same]
  simp

theorem State.setCoef_read_other {p p' : Slot} {i i' : CoefIdx} (v : Coef) (h : (p', i') ≠ (p, i)) :
    (s.setCoef p i v).coefAt p' i' = s.coefAt p' i' := by
  rw [State.coefAt_eq, State.setCoef_eq_setSlot, State.coefAt_eq]
  by_cases hp : p' = p
  · subst hp
    have hi : i.val ≠ i'.val := fun e => h (by rw [Fin.ext e])
    simp [hi]
  · rw [State.setSlot_slot_other _ _ hp]

theorem State.setCoef_onlyCoef (p : Slot) (i : CoefIdx) (v : Coef) : OnlyCoef p i s (s.setCoef p i v) :=
  ⟨rfl, fun _ _ h => s.setCoef_read_other v h⟩

/-! ### Tags -/

theorem State.setTag_tagOf (p p' : Slot) (b : Bool) :
    (s.setTag p b).tagOf p' = if p' = p then b else s.tagOf p' := by
  have hp := p.isLt
  have hp' := p'.isLt
  by_cases h : p' = p
  · subst h
    cases b <;> simp [State.setTag, State.tagOf]
  · have hne : p'.val ≠ p.val := fun e => h (Fin.ext e)
    rcases Nat.lt_or_gt_of_ne hne with hlt | hgt
    · cases b <;> simp [State.setTag, State.tagOf, h, hlt]
    · have h1 : p'.val - p.val ≠ 0 := by omega
      cases b <;> simp [State.setTag, State.tagOf, h, h1, Nat.not_lt.mpr hgt.le]

@[simp] theorem State.setTag_tagOf_same (p : Slot) (b : Bool) : (s.setTag p b).tagOf p = b := by
  rw [State.setTag_tagOf, if_pos rfl]

theorem State.setTag_tagOf_other {p p' : Slot} (b : Bool) (h : p' ≠ p) : (s.setTag p b).tagOf p' = s.tagOf p' := by
  rw [State.setTag_tagOf, if_neg h]

/-! ### The write of a command of the array controller -/

@[simp] theorem State.writeSlot_slot_same (p : Slot) (f : RingElt) (b : Bool) : (s.writeSlot p f b).slot p = f :=
  s.setSlot_slot_same p f

@[simp] theorem State.writeSlot_tagOf_same (p : Slot) (f : RingElt) (b : Bool) : (s.writeSlot p f b).tagOf p = b :=
  (s.setSlot p f).setTag_tagOf_same p b

theorem State.writeSlot_slot_other {p p' : Slot} (f : RingElt) (b : Bool) (h : p' ≠ p) :
    (s.writeSlot p f b).slot p' = s.slot p' := s.setSlot_slot_other f h

theorem State.writeSlot_tagOf_other {p p' : Slot} (f : RingElt) (b : Bool) (h : p' ≠ p) :
    (s.writeSlot p f b).tagOf p' = s.tagOf p' := (s.setSlot p f).setTag_tagOf_other b h

theorem State.writeSlot_onlySlot (p : Slot) (f : RingElt) (b : Bool) : OnlySlot p s (s.writeSlot p f b) :=
  ⟨rfl, fun _ h => ⟨s.writeSlot_slot_other f b h, s.writeSlot_tagOf_other f b h⟩⟩

/-- Writing back what a slot holds changes nothing. -/
theorem State.writeSlot_self (p : Slot) : s.writeSlot p (s.slot p) (s.tagOf p) = s := by
  have h1 : s.setSlot p (s.slot p) = s := by simp [State.setSlot, State.slot]
  have h2 : s.setTag p (s.tagOf p) = s := by
    have : (s.setTag p (s.tagOf p)).tag = s.tag := by
      apply BitVec.eq_of_getLsbD_eq
      intro i hi
      have h := s.setTag_tagOf p ⟨i, hi⟩ (s.tagOf p)
      simp only [State.tagOf] at h ⊢
      rw [h]
      split
      · next e => rw [← e]
      · rfl
    calc s.setTag p (s.tagOf p) = { s with tag := (s.setTag p (s.tagOf p)).tag } := rfl
      _ = s := by rw [this]
  rw [State.writeSlot, h1, h2]

/-! ### The range invariant is kept by every write of a canonical value -/

theorem State.InRange.setC {s : State} (h : s.InRange) (i : CReg) {v : Coef} (hv : Canonical v) :
    (s.setC i v).InRange := by
  refine ⟨fun r => ?_, h.2⟩
  by_cases hr : r = i
  · subst hr
    rw [State.setC_read_same]
    exact hv
  · rw [State.setC_read_other _ _ hr]
    exact h.1 r

theorem State.InRange.setSlot {s : State} (h : s.InRange) (p : Slot) {f : RingElt} (hf : CanonicalElt f) :
    (s.setSlot p f).InRange := by
  refine ⟨h.1, fun p' => ?_⟩
  by_cases hp : p' = p
  · subst hp
    rw [State.setSlot_slot_same]
    exact hf
  · rw [State.setSlot_slot_other _ _ hp]
    exact h.2 p'

theorem State.InRange.setCoef {s : State} (h : s.InRange) (p : Slot) (i : CoefIdx) {v : Coef} (hv : Canonical v) :
    (s.setCoef p i v).InRange := by
  rw [State.setCoef_eq_setSlot]
  refine h.setSlot p fun j => ?_
  by_cases hj : i.val = j.val
  · simpa [hj] using hv
  · simpa [hj] using h.2 p j

theorem State.InRange.writeSlot {s : State} (h : s.InRange) (p : Slot) {f : RingElt} (b : Bool)
    (hf : CanonicalElt f) : (s.writeSlot p f b).InRange := by
  have := h.setSlot p hf
  exact ⟨this.1, this.2⟩

theorem reset_inRange : State.reset.InRange := by
  constructor
  · intro r
    simp [State.reset, Canonical]
  · intro p i
    simp [State.reset, Canonical, State.slot]

end Sys2Proof.Machine
end

