-- ==== Sys2Proof/Laws/Ops.lean ====
section
/-! SUPPORT. What each shared operation can do, said once (`20_memory.md` rules R51, R64 and R65, `30_encoding.md` rule
R81, `60_exceptions.md` rule R170). A proof cites these and does not unfold the operations. -/

namespace Sys2Proof.Machine

variable (s : State)

/-! ### Raising a fault (R170) -/

/-- Nothing changes but ERR, FADDR and FDATA. -/
theorem State.raise_frame (x : Cause) (off : Offset) (v : Word) :
    s.raise x off v = { s with
      err := (s.raise x off v).err, faddr := (s.raise x off v).faddr, fdata := (s.raise x off v).fdata } := rfl

theorem State.InRange.raise {s : State} (h : s.InRange) (x : Cause) (off : Offset) (v : Word) :
    (s.raise x off v).InRange := h

theorem issueCheck_congr {s t : State} (h : t.tag = s.tag) (i : Instr) : issueCheck t i = issueCheck s i := by
  have ht : ∀ p, t.tagOf p = s.tagOf p := fun p => by rw [State.tagOf, State.tagOf, h]
  cases i <;> simp only [issueCheck, ht]

/-! ### Issue (R81) -/

/-- A word written to CMD is refused with one fault, or it decodes, its checks hold and it fills PEND. -/
theorem State.issue_cases (w : Word) :
    (∃ x, s.issue w = s.raise x Config.cmdOffset w) ∨
    ∃ i, decode w = .ok i ∧ issueCheck s i = none ∧ s.issue w = { s with pend := some w } := by
  unfold State.issue
  split
  · exact .inl ⟨_, rfl⟩
  · next i hi =>
    split
    · exact .inl ⟨_, rfl⟩
    · next hc => exact .inr ⟨i, hi, hc, rfl⟩

theorem State.issue_illegal {w : Word} {e : Illegal} (h : decode w = .error e) :
    s.issue w = s.raise .illcmd Config.cmdOffset w := by
  simp only [State.issue, h]

theorem State.issue_refused {w : Word} {i : Instr} {x : Cause} (h : decode w = .ok i) (hc : issueCheck s i = some x) :
    s.issue w = s.raise x Config.cmdOffset w := by
  simp only [State.issue, h, hc]

theorem State.issue_accepted {w : Word} {i : Instr} (h : decode w = .ok i) (hc : issueCheck s i = none) :
    s.issue w = { s with pend := some w } := by
  simp only [State.issue, h, hc]

/-! ### The window map and the checks (R36, R51) -/

theorem ite_some_cases {c : Prop} [Decidable c] {x l : Loc} {e : Option Loc} (h : (if c then some x else e) = some l) :
    (c ∧ l = x) ∨ (¬c ∧ e = some l) := by
  by_cases hc : c
  · rw [if_pos hc] at h
    exact .inl ⟨hc, (Option.some.inj h).symm⟩
  · rw [if_neg hc] at h
    exact .inr ⟨hc, h⟩

/-- The location found at an aligned offset stands at that offset, so no two offsets find one location. -/
theorem offset_of_locateAt {o : Nat} {l : Loc} (ho : o < 0x8000) (ha : o % 4 = 0) (h : locateAt o = some l) :
    l.offset = o := by
  unfold locateAt at h
  iterate 15
    rcases ite_some_cases h with ⟨hc, rfl⟩ | ⟨-, h⟩
    · simp only [Loc.offset, Fin.ofNat]; omega
    clear * - h ho ha
  cases h

/-- Every location is found at its offset. -/
theorem locateAt_offset (l : Loc) : locateAt l.offset = some l := by
  cases l
  case ka i =>
    unfold locateAt
    simp only [Loc.offset]
    iterate 7 refine (if_neg (by omega)).trans ?_
    refine (if_pos (by omega)).trans (congrArg (some ∘ Loc.ka) (Fin.ext ?_))
    simp only [Fin.ofNat]; omega
  case kb i =>
    unfold locateAt
    simp only [Loc.offset]
    iterate 8 refine (if_neg (by omega)).trans ?_
    refine (if_pos (by omega)).trans (congrArg (some ∘ Loc.kb) (Fin.ext ?_))
    simp only [Fin.ofNat]; omega
  case kout i =>
    unfold locateAt
    simp only [Loc.offset]
    iterate 9 refine (if_neg (by omega)).trans ?_
    refine (if_pos (by omega)).trans (congrArg (some ∘ Loc.kout) (Fin.ext ?_))
    simp only [Fin.ofNat]; omega
  case c i =>
    unfold locateAt
    simp only [Loc.offset]
    iterate 12 refine (if_neg (by omega)).trans ?_
    refine (if_pos (by omega)).trans (congrArg (some ∘ Loc.c) (Fin.ext ?_))
    simp only [Fin.ofNat]; omega
  case zeta i =>
    unfold locateAt
    simp only [Loc.offset]
    iterate 13 refine (if_neg (by omega)).trans ?_
    refine (if_pos (by omega)).trans (congrArg (some ∘ Loc.zeta) (Fin.ext ?_))
    simp only [Fin.ofNat]; omega
  case coef p i =>
    unfold locateAt
    simp only [Loc.offset]
    iterate 14 refine (if_neg (by omega)).trans ?_
    refine (if_pos (by omega)).trans (congrArg some (congrArg₂ Loc.coef (Fin.ext ?_) (Fin.ext ?_))) <;>
      (simp only [Fin.ofNat]; omega)
  all_goals rfl

theorem locate_offset {off : Offset} {l : Loc} (h : l.offset = off.toNat) : locate off = some l := by
  rw [locate, ← h, locateAt_offset]

/-- When a transaction passes checks 1 to 4. -/
theorem State.checkAccess_ok {isWrite : Bool} {off : Offset} {size : Width} {l : Loc}
    (h : s.checkAccess isWrite off size = .ok l) :
    size = .four ∧ l.offset = off.toNat ∧
      (isWrite = true → l.writable = true) ∧ (isWrite = false → l.readable = true) ∧
      (s.busy = true → isWrite = false ∧ l.readableWhileBusy = true) := by
  unfold State.checkAccess at h
  split at h
  · cases h
  · next h1 =>
    split at h
    · cases h
    · next l' hl =>
      split at h
      · cases h
      · next h2 =>
        split at h
        · cases h
        · next h3 =>
          cases h
          simp only [not_or, not_and, Bool.not_eq_false, ne_eq, Decidable.not_not] at h1 h2
          have ha : off.toNat % 4 = 0 := by simpa using congrArg BitVec.toNat h1.2
          exact ⟨h1.1, offset_of_locateAt off.isLt ha hl, h2.1, h2.2,
            fun hb => Decidable.byContradiction fun hn => h3 ⟨hb, hn⟩⟩

/-! ### The checks passed -/

/-- A 4-byte write to a writable location, while no command is pending, acts on the location. -/
theorem State.hostWrite_of_locate {s : State} (hp : s.pend = none) {off : Offset} (v : Word) {l : Loc}
    (ho : l.offset = off.toNat) (hw : l.writable = true) : s.hostWrite off (.word v) = s.writeLoc off v l := by
  have ha : off.extractLsb' 0 2 = 0#2 := by
    apply BitVec.eq_of_toNat_eq
    have h4 : l.offset % 4 = 0 := by cases l <;> simp only [Loc.offset] <;> omega
    simp [← ho, h4]
  have hb : s.busy = false := by rw [State.busy, hp]; rfl
  unfold State.hostWrite State.checkAccess
  rw [if_neg (by simp [WriteData.width, ha]), locate_offset ho]
  simp [hw, hb, WriteData.zext]

/-- A 4-byte read of a readable location, while no command is pending or of a location readable all the time. -/
theorem State.hostRead_of_locate {s : State} {off : Offset} {l : Loc} (ho : l.offset = off.toNat)
    (hr : l.readable = true) (hb : s.pend = none ∨ l.readableWhileBusy = true) :
    s.hostRead off .four = (s, s.readLoc l) := by
  have ha : off.extractLsb' 0 2 = 0#2 := by
    apply BitVec.eq_of_toNat_eq
    have h4 : l.offset % 4 = 0 := by cases l <;> simp only [Loc.offset] <;> omega
    simp [← ho, h4]
  have hb : ¬(s.busy = true ∧ l.readableWhileBusy = false) := by
    rcases hb with hb | hb <;> simp [State.busy, hb]
  unfold State.hostRead State.checkAccess
  rw [if_neg (by simp [ha]), locate_offset ho]
  simp [hr, hb]

/-- A command word written while no command is pending goes to issue. -/
theorem State.writeCmd_eq_issue {s : State} (hp : s.pend = none) (w : Word) : s.writeCmd w = s.issue w :=
  State.hostWrite_of_locate hp w (l := .cmd) rfl rfl

/-! ### Transactions (R51) -/

/-- A write is refused with one fault, or it is a 4-byte write that passes the checks and acts on its location while no command is pending. -/
theorem State.hostWrite_cases (off : Offset) (d : WriteData) :
    (∃ x, s.hostWrite off d = s.raise x off d.zext) ∨
    ∃ l, d = .word d.zext ∧ l.offset = off.toNat ∧ l.writable = true ∧ s.pend = none ∧
      s.hostWrite off d = s.writeLoc off d.zext l := by
  unfold State.hostWrite
  split
  · exact .inl ⟨_, rfl⟩
  · next l h =>
    have := s.checkAccess_ok h
    have hd : d = .word d.zext := by
      cases d
      case word => rfl
      all_goals cases this.1
    refine .inr ⟨l, hd, this.2.1, this.2.2.1 rfl, ?_, rfl⟩
    have hb := this.2.2.2.2
    cases hp : s.pend with
    | none => rfl
    | some w => exact absurd (hb (by rw [State.busy, hp]; rfl)).1 (by decide)

/-- A read is refused with one fault and returns 0, or it passes the checks and changes nothing. -/
theorem State.hostRead_cases (off : Offset) (size : Width) :
    (∃ x, s.hostRead off size = (s.raise x off 0#32, 0#32)) ∨
    ∃ l, size = .four ∧ l.offset = off.toNat ∧ l.readable = true ∧ s.hostRead off size = (s, s.readLoc l) := by
  unfold State.hostRead
  split
  · exact .inl ⟨_, rfl⟩
  · next l h =>
    have := s.checkAccess_ok h
    exact .inr ⟨l, this.1, this.2.1, this.2.2.2.1 rfl, rfl⟩

/-- While a command is pending every write is refused (R175). -/
theorem State.hostWrite_busy {w : Word} (h : s.pend = some w) (off : Offset) (d : WriteData) :
    ∃ x, s.hostWrite off d = s.raise x off d.zext := by
  rcases s.hostWrite_cases off d with h' | ⟨l, -, -, -, hn, -⟩
  · exact h'
  · rw [h] at hn
    cases hn

/-- What a write that passed the checks can do (R65): refuse the value with RANGE, issue, acknowledge, or store to its
one register, each leaving everything else alone. -/
theorem State.writeLoc_cases (off : Offset) (v : Word) (l : Loc) :
    (l = .cmd ∧ s.writeLoc off v l = s.issue v) ∨
    (l = .err ∧ s.writeLoc off v l = s.acknowledge v) ∨
    (l = .domtag ∧ s.writeLoc off v l = { s with tag := v.setWidth 16 }) ∨
    (∃ ka kb cmpa cmpb, s.writeLoc off v l = { s with ka := ka, kb := kb, cmpa := cmpa, cmpb := cmpb }) ∨
    (∃ i, l = .c i ∧ v.toNat < 3329 ∧ s.writeLoc off v l = s.setC i (v.setWidth 12)) ∨
    (∃ p i, l = .coef p i ∧ v.toNat < 3329 ∧ s.writeLoc off v l = s.setCoef p i (v.setWidth 12)) ∨
    (3329 ≤ v.toNat ∧ s.writeLoc off v l = s.raise .range off v) := by
  cases l
  case cmd => exact .inl ⟨rfl, rfl⟩
  case err => exact .inr (.inl ⟨rfl, rfl⟩)
  case domtag => exact .inr (.inr (.inl ⟨rfl, rfl⟩))
  case c i =>
    by_cases h : 3329 ≤ v.toNat
    · exact .inr (.inr (.inr (.inr (.inr (.inr ⟨h, if_pos h⟩)))))
    · exact .inr (.inr (.inr (.inr (.inl ⟨i, rfl, by omega, if_neg h⟩))))
  case coef p i =>
    by_cases h : 3329 ≤ v.toNat
    · exact .inr (.inr (.inr (.inr (.inr (.inr ⟨h, if_pos h⟩)))))
    · exact .inr (.inr (.inr (.inr (.inr (.inl ⟨p, i, rfl, by omega, if_neg h⟩)))))
  all_goals exact .inr (.inr (.inr (.inl ⟨_, _, _, _, rfl⟩)))

/-- A stored host value is canonical (R174). -/
theorem canonical_setWidth {v : Word} (h : v.toNat < 3329) : Canonical (v.setWidth 12) := by
  rw [Canonical, BitVec.toNat_setWidth, Nat.mod_eq_of_lt (by omega)]
  exact h

/-! ### What no transaction touches -/

theorem State.writeLoc_keeps (off : Offset) (v : Word) (l : Loc) :
    (s.writeLoc off v l).kout = s.kout ∧ (s.writeLoc off v l).diff = s.diff ∧
      (s.writeLoc off v l).events = s.events ∧ (s.writeLoc off v l).replies = s.replies := by
  rcases s.writeLoc_cases off v l with ⟨-, h⟩ | ⟨-, h⟩ | ⟨-, h⟩ | ⟨_, _, _, _, h⟩ | ⟨_, -, -, h⟩ | ⟨_, _, -, -, h⟩ | ⟨-, h⟩
  case inl =>
    rcases s.issue_cases v with ⟨x, h'⟩ | ⟨i, -, -, h'⟩ <;> (rw [h, h']; simp)
  all_goals (rw [h]; simp)

/-- A transaction leaves KOUT, DIFF and the agents' coming steps alone. -/
theorem State.transact_keeps (t : Txn) :
    (s.transact t).kout = s.kout ∧ (s.transact t).diff = s.diff ∧ (s.transact t).events = s.events := by
  cases t with
  | write off d =>
    simp only [State.transact]
    rcases s.hostWrite_cases off d with ⟨x, h⟩ | ⟨l, -, -, -, -, h⟩
    · rw [h]; simp
    · rw [h]
      have := s.writeLoc_keeps off d.zext l
      exact ⟨this.1, this.2.1, this.2.2.1⟩
  | read off size =>
    simp only [State.transact]
    rcases s.hostRead_cases off size with ⟨x, h⟩ | ⟨l, -, -, -, h⟩ <;> (rw [h]; simp)

end Sys2Proof.Machine
end

