-- ==== Sys2Proof/Laws/Residue.lean ====
section
/-! SUPPORT. The scalar functions read in the field of residues modulo q (`40_scalar_arith.md` rules R100, R102 and R103,
`41_butterfly.md` rule R120), and what one forward layer keeps: the value of every final pair (`42_polynomial.md` rule
R133). -/

namespace Sys2Proof.Machine

/-- The residue of a coefficient. -/
def residue (a : Coef) : ZMod 3329 := (a.toNat : ZMod 3329)

theorem natCast_mod_q (n : Nat) : ((n % 3329 : Nat) : ZMod 3329) = n := ZMod.natCast_mod n 3329

theorem residue_maddq (a b : Coef) : residue (maddq a b) = residue a + residue b := by
  rw [residue, maddq_toNat, natCast_mod_q, Nat.cast_add]
  rfl

theorem residue_msubq (a b : Coef) : residue (msubq a b) = residue a - residue b := by
  have h := congrArg (fun x : Int => (x : ZMod 3329)) (msubq_toInt a b)
  simp only [Int.cast_natCast] at h
  rw [residue, h]
  exact (ZMod.intCast_mod _ 3329).trans (by push_cast; rfl)

theorem residue_mm (a b : Coef) : residue (mm a b) = residue a * residue b * 169 := by
  rw [residue, mm_toNat, natCast_mod_q]
  push_cast
  rfl

/-- One Montgomery product with a stored root is the plain product with the root (R120). -/
theorem residue_mm_zeta {z : Nat} (h : z < 128) (b : Coef) : residue (mm (zeta z) b) = 17 ^ brv7 z * residue b := by
  rw [residue, mm_zeta_toNat h, natCast_mod_q]
  push_cast
  rfl

/-- A canonical coefficient is its residue taken below q. -/
theorem toNat_of_residue {a : Coef} (ha : Canonical a) {n : Nat} (h : residue a = (n : ZMod 3329)) : a.toNat = n % 3329 := by
  have := (ZMod.natCast_eq_natCast_iff' _ _ _).1 h
  rwa [Nat.mod_eq_of_lt ha] at this

theorem residue_injective {a b : Coef} (ha : Canonical a) (hb : Canonical b) (h : residue a = residue b) : a = b := by
  refine BitVec.eq_of_toNat_eq ((toNat_of_residue ha h).trans ?_)
  exact Nat.mod_eq_of_lt hb

/-! ### What a forward layer keeps -/

/-- GAMMA(i) as a residue: the root that pair `i` of the transform is reduced by (R133). -/
def gammaResidue (i : Nat) : ZMod 3329 := 17 ^ (2 * brv7 i + 1)

/-- In a list of blocks of `2 * len` coefficients: the coefficients of parity `o` of the block that pair `i` comes from,
as a polynomial at GAMMA(i). -/
def blockValue (g : List Coef) (len i o : Nat) : ZMod 3329 :=
  ∑ k ∈ Finset.range len, residue (g.getD (i / len * (2 * len) + (2 * k + o)) 0#12) * gammaResidue i ^ k

theorem gamma_power_table : ∀ h ∈ [64, 32, 16, 8, 4, 2, 1], ∀ i : Fin 128,
    17 ^ ((2 * brv7 i + 1) * h) % 3329 = (if i / h % 2 = 0 then 17 ^ brv7 (128 / (2 * h) + i / (2 * h))
      else 3328 * 17 ^ brv7 (128 / (2 * h) + i / (2 * h))) % 3329 := by
  decide +kernel

/-- The power of GAMMA(i) that a block's upper half carries is the block's root, with the sign of the half. -/
theorem gammaResidue_pow {h i : Nat} (hh : h ∈ [64, 32, 16, 8, 4, 2, 1]) (hi : i < 128) :
    gammaResidue i ^ h = (if i / h % 2 = 0 then 1 else -1) * 17 ^ brv7 (128 / (2 * h) + i / (2 * h)) := by
  have e := congrArg (fun n : Nat => (n : ZMod 3329)) (gamma_power_table h hh ⟨i, hi⟩)
  simp only [natCast_mod_q] at e
  push_cast at e
  rw [gammaResidue, ← pow_mul, e]
  have : (3328 : ZMod 3329) = -1 := by decide
  split <;> simp [this]

/-- A forward layer keeps the value of every final pair. -/
theorem blockValue_nttLayer {h i o : Nat} (hh : h ∈ [64, 32, 16, 8, 4, 2, 1]) (hi : i < 128) (ho : o < 2)
    {g : List Coef} (hg : g.length = 256) : blockValue (nttLayer (2 * h) g) h i o = blockValue g (2 * h) i o := by
  have hpos : 0 < h := by fin_cases hh <;> decide
  have hb : 128 / (2 * h) * (2 * (2 * h)) = 256 := by fin_cases hh <;> decide
  have hz : 128 / (2 * h) + i / (2 * h) < 128 := by fin_cases hh <;> simp <;> omega
  have hk : i / (2 * h) < 128 / (2 * h) := by fin_cases hh <;> simp <;> omega
  have hpow := gammaResidue_pow hh hi
  unfold blockValue
  rw [show 2 * h = h + h by omega, Finset.sum_range_add, ← show 2 * h = h + h by omega]
  simp only [pow_add, hpow]
  rw [← Finset.sum_add_distrib]
  refine Finset.sum_congr rfl fun m hm => ?_
  have hm' := Finset.mem_range.1 hm
  have key := nttBlocks_get (2 * h) (128 / (2 * h)) (128 / (2 * h)) g (by rw [hg, hb]) (i / (2 * h)) hk (2 * m + o)
    (by omega)
  have k1 := congrArg Prod.fst key
  have k2 := congrArg Prod.snd key
  simp only [bfctPair] at k1 k2
  rw [show i / (2 * h) * (2 * (2 * h)) + (2 * m + o) + 2 * h = i / (2 * h) * (2 * (2 * h)) + (2 * (h + m) + o) by omega]
    at k1 k2
  have hdiv : i / (2 * h) = i / h / 2 := by rw [Nat.mul_comm, Nat.div_div_eq_div_mul]
  have hmod := Nat.div_add_mod (i / h) 2
  rcases Nat.mod_two_eq_zero_or_one (i / h) with h0 | h0
  · have e : i / h * (2 * h) = i / (2 * h) * (2 * (2 * h)) := by
      rw [hdiv]
      conv_lhs => rw [← hmod, h0]
      ring
    rw [if_pos h0, e, nttLayer, k1, residue_maddq, residue_mm_zeta hz]
    ring
  · have e : i / h * (2 * h) + (2 * m + o) = i / (2 * h) * (2 * (2 * h)) + (2 * (h + m) + o) := by
      rw [hdiv]
      conv_lhs => rw [← hmod, h0]
      ring
    rw [if_neg (by omega), e, nttLayer, k2, residue_msubq, residue_mm_zeta hz]
    ring

end Sys2Proof.Machine
end

