-- ==== Sys2Proof/Laws/Step.lean ====
section
/-! SUPPORT. What a command and a step can do, said once (`30_encoding.md` rule R82, `00_scope.md` rule R6). -/

namespace Sys2Proof.Machine

/-- Completion never faults (R82, R187 (c)): every command has a next state. -/
theorem exec_next (i : Instr) (s : State) : ∃ t, exec i s = .next t := by
  cases i <;> exact ⟨_, rfl⟩

/-- A command leaves PEND, ERR, FADDR and the model's own fields alone. -/
theorem exec_keeps {i : Instr} {s t : State} (h : exec i s = .next t) :
    t.pend = s.pend ∧ t.err = s.err ∧ t.faddr = s.faddr ∧ t.events = s.events ∧ t.replies = s.replies := by
  cases i <;> cases h <;> exact ⟨rfl, rfl, rfl, rfl, rfl⟩

/-- A command whose checks at issue hold keeps the range invariant (R25, R110). -/
theorem exec_inRange {i : Instr} {s t : State} (hs : s.InRange) (hc : issueCheck s i = none) (h : exec i s = .next t) :
    t.InRange := by
  cases i <;> cases h
  case nop => exact hs
  case zall =>
    refine ⟨fun r => ?_, fun p => ?_⟩
    · simpa using canonical_zero
    · simpa [State.slot] using ringZero_canonical
  case mmul cd ca cb => exact hs.setC cd (mm_canonical _ _)
  case madd cd ca cb => exact hs.setC cd (maddq_canonical _ _)
  case msub cd ca cb => exact hs.setC cd (msubq_canonical _ _)
  case bfct ca cb z => exact (hs.setC ca (bfctPair_canonical _ _ _).1).setC cb (bfctPair_canonical _ _ _).2
  case bfgs ca cb z => exact (hs.setC ca (bfgsPair_canonical _ _ _).1).setC cb (bfgsPair_canonical _ _ _).2
  case ldi cd imm =>
    refine hs.setC cd ?_
    by_contra hn
    have : Config.q ≤ imm.toNat := Nat.not_lt.mp hn
    simp [issueCheck, this] at hc
  case ldc c p idx => exact hs.setC c (hs.2 p idx)
  case stc c p idx => exact hs.setCoef p idx (hs.1 c)
  case padd pd pa pb => exact hs.writeSlot pd _ (ringAdd_canonical _ _)
  case psub pd pa pb => exact hs.writeSlot pd _ (ringSub_canonical _ _)
  case pmul pd pa pb => exact hs.writeSlot pd _ (baseMul_canonical _ _)
  case pntt pd pa => exact hs.writeSlot pd _ (ntt_canonical _)
  case pintt pd pa => exact hs.writeSlot pd _ (intt_canonical _)
  case pcopy pd pa => exact hs.writeSlot pd _ (hs.2 pa)
  case pzero pd => exact hs.writeSlot pd _ ringZero_canonical
  case ctclr => exact hs
  case ctacc => exact hs
  case csel => exact hs

/-- A completion with a next state: nothing was pending and nothing changed, or the pending command had its effect. -/
theorem complete_cases {s t : State} (h : complete s = .next t) :
    (s.pend = none ∧ t = s) ∨ ∃ w i, s.pend = some w ∧ decode w = .ok i ∧ exec i s.retire = .next t := by
  unfold complete at h
  split at h
  · next hp =>
    cases h
    exact .inl ⟨hp, rfl⟩
  · next w hp =>
    split at h
    · next i hi => exact .inr ⟨w, i, hp, hi, h⟩
    · cases h

/-- A step with a next state is the host's, the engine's, or a reset; with no event left it is the engine's. -/
theorem step_cases {s t : State} (h : step s = .next t) :
    (∃ x es, s.events = .host x :: es ∧ t = (s.withEvents es).transact x) ∨
    (∃ es, s.events = .reset :: es ∧ t = (s.withEvents es).resetBlock) ∨
    (∃ es, s.events = .engine :: es ∧ complete (s.withEvents es) = .next t) ∨
    (s.events = [] ∧ complete s = .next t) := by
  unfold step at h
  split at h
  · next he => exact .inr (.inr (.inr ⟨he, h⟩))
  · next e es he =>
    cases e with
    | host x =>
      cases h
      exact .inl ⟨x, es, he, rfl⟩
    | engine => exact .inr (.inr (.inl ⟨es, he, h⟩))
    | reset =>
      cases h
      exact .inr (.inl ⟨es, he, rfl⟩)

end Sys2Proof.Machine
end

