-- ==== Sys2Proof/Laws/Window.lean ====
section
/-! SUPPORT. The window map against the numbers of `10_state.md` rule R36, and which fields a transaction of the host can
reach (`20_memory.md` rule R51). -/

namespace Sys2Proof.Machine

/-! ### The map by numbers -/

/-- Every aligned offset of the window either is unmapped or is the offset of a location. -/
theorem exists_loc_of_mapped {o : Nat} (ho : o < 0x8000) (ha : o % 4 = 0) (hu : ¬Unmapped o) :
    ∃ l : Loc, l.offset = o := by
  unfold Unmapped at hu
  by_cases h : o < 0x1C
  · have : o = 0 ∨ o = 4 ∨ o = 8 ∨ o = 12 ∨ o = 16 ∨ o = 20 ∨ o = 24 := by omega
    rcases this with rfl | rfl | rfl | rfl | rfl | rfl | rfl
    exacts [⟨.id, rfl⟩, ⟨.cmd, rfl⟩, ⟨.status, rfl⟩, ⟨.err, rfl⟩, ⟨.faddr, rfl⟩, ⟨.fdata, rfl⟩, ⟨.domtag, rfl⟩]
  by_cases h : o < 0x40
  · exact ⟨.ka ⟨(o - 0x20) / 4, by omega⟩, by simp only [Loc.offset]; omega⟩
  by_cases h : o < 0x60
  · exact ⟨.kb ⟨(o - 0x40) / 4, by omega⟩, by simp only [Loc.offset]; omega⟩
  by_cases h : o < 0x80
  · exact ⟨.kout ⟨(o - 0x60) / 4, by omega⟩, by simp only [Loc.offset]; omega⟩
  by_cases h : o < 0x100
  · have : o = 0x80 ∨ o = 0x84 := by omega
    rcases this with rfl | rfl
    exacts [⟨.cmpa, rfl⟩, ⟨.cmpb, rfl⟩]
  by_cases h : o < 0x200
  · exact ⟨.c ⟨(o - 0x100) / 4, by omega⟩, by simp only [Loc.offset]; omega⟩
  by_cases h : o < 0x400
  · exact ⟨.zeta ⟨(o - 0x200) / 4, by omega⟩, by simp only [Loc.offset]; omega⟩
  · exact ⟨.coef ⟨(o - 0x4000) / 0x400, by omega⟩ ⟨(o - 0x4000) % 0x400 / 4, by omega⟩,
      by simp only [Loc.offset]; omega⟩

/-- A location's offset is not unmapped. -/
theorem not_unmapped_offset (l : Loc) : ¬Unmapped l.offset := by
  unfold Unmapped
  cases l <;> simp only [Loc.offset] <;> omega

theorem locateAt_eq_none_iff {o : Nat} (ho : o < 0x8000) (ha : o % 4 = 0) : locateAt o = none ↔ Unmapped o := by
  constructor
  · intro h
    by_contra hu
    obtain ⟨l, rfl⟩ := exists_loc_of_mapped ho ha hu
    rw [locateAt_offset] at h
    cases h
  · intro hu
    cases hl : locateAt o with
    | none => rfl
    | some l => exact absurd (offset_of_locateAt ho ha hl ▸ hu) (not_unmapped_offset l)

theorem readOnly_iff (l : Loc) : ReadOnly l.offset ↔ l.writable = false := by
  unfold ReadOnly
  cases l <;> simp [Loc.offset, Loc.writable] <;> omega

theorem writeOnly_iff (l : Loc) : WriteOnly l.offset ↔ l.readable = false := by
  unfold WriteOnly
  cases l <;> simp [Loc.offset, Loc.readable] <;> omega

theorem statusOffset_iff (l : Loc) : StatusOffset l.offset ↔ l.readableWhileBusy = true := by
  unfold StatusOffset
  cases l <;> simp [Loc.offset, Loc.readableWhileBusy] <;> omega

theorem aligned_iff (off : Offset) : off.extractLsb' 0 2 = 0#2 ↔ off.toNat % 4 = 0 := by
  rw [← BitVec.toNat_inj]
  simp

theorem offset_eq {off : Offset} {l : Loc} {n : Nat} (h : l.offset = off.toNat) (hn : l.offset = n) :
    off = BitVec.ofNat 15 n := by
  rw [← hn, h, BitVec.ofNat_toNat, BitVec.setWidth_eq]

/-! ### Which fields a write can reach -/

variable (s : State)

/-- ERR: one fault is raised, ERR stays, or the write is the acknowledgement (R31). -/
theorem State.hostWrite_err_cases (off : Offset) (d : WriteData) :
    (∃ x, s.hostWrite off d = s.raise x off d.zext) ∨ (s.hostWrite off d).err = s.err ∨
    (off = 0x000C#15 ∧ s.pend = none ∧ d = .word d.zext ∧
      (s.hostWrite off d).err = s.err &&& ~~~(d.zext.setWidth 5)) := by
  rcases s.hostWrite_cases off d with h | ⟨l, hd, hl, -, hp, h⟩
  · exact .inl h
  rcases s.writeLoc_cases off d.zext l with ⟨rfl, h'⟩ | ⟨rfl, h'⟩ | ⟨-, h'⟩ | ⟨_, _, _, _, h'⟩ | ⟨_, -, -, h'⟩ |
    ⟨_, _, -, -, h'⟩ | ⟨-, h'⟩
  · rcases s.issue_cases d.zext with ⟨x, h''⟩ | ⟨i, -, -, h''⟩
    · exact .inl ⟨x, by rw [h, h', h'', offset_eq (n := 4) hl rfl]⟩
    · exact .inr (.inl (by rw [h, h', h'']))
  · exact .inr (.inr ⟨offset_eq hl rfl, hp, hd, by rw [h, h', State.acknowledge_err]⟩)
  · exact .inr (.inl (by rw [h, h']))
  · exact .inr (.inl (by rw [h, h']))
  · exact .inr (.inl (by rw [h, h', State.setC_err]))
  · exact .inr (.inl (by rw [h, h', State.setCoef_err]))
  · exact .inl ⟨.range, by rw [h, h']⟩

/-- PEND: it stays, or the write is an accepted issue (R30, R81). -/
theorem State.hostWrite_pend_cases (off : Offset) (d : WriteData) :
    (s.hostWrite off d).pend = s.pend ∨
    (off = 0x0004#15 ∧ s.pend = none ∧ d = .word d.zext ∧ (∃ i, decode d.zext = .ok i ∧ issueCheck s i = none) ∧
      (s.hostWrite off d).pend = some d.zext) := by
  rcases s.hostWrite_cases off d with ⟨x, h⟩ | ⟨l, hd, hl, -, hp, h⟩
  · exact .inl (by rw [h, State.raise_pend])
  rcases s.writeLoc_cases off d.zext l with ⟨rfl, h'⟩ | ⟨-, h'⟩ | ⟨-, h'⟩ | ⟨_, _, _, _, h'⟩ | ⟨_, -, -, h'⟩ |
    ⟨_, _, -, -, h'⟩ | ⟨-, h'⟩
  · rcases s.issue_cases d.zext with ⟨x, h''⟩ | ⟨i, hi, hc, h''⟩
    · exact .inl (by rw [h, h', h'', State.raise_pend])
    · exact .inr ⟨offset_eq hl rfl, hp, hd, ⟨i, hi, hc⟩, by rw [h, h', h'']⟩
  · exact .inl (by rw [h, h', State.acknowledge_pend])
  · exact .inl (by rw [h, h'])
  · exact .inl (by rw [h, h'])
  · exact .inl (by rw [h, h', State.setC_pend])
  · exact .inl (by rw [h, h', State.setCoef_pend])
  · exact .inl (by rw [h, h', State.raise_pend])

/-- TAG: it stays, or the write is to DOMTAG (R24, R198). -/
theorem State.hostWrite_tag_cases (off : Offset) (d : WriteData) :
    (s.hostWrite off d).tag = s.tag ∨
    (off = 0x0018#15 ∧ d = .word d.zext ∧ (s.hostWrite off d).tag = d.zext.setWidth 16) := by
  rcases s.hostWrite_cases off d with ⟨x, h⟩ | ⟨l, hd, hl, -, -, h⟩
  · exact .inl (by rw [h, State.raise_tag])
  rcases s.writeLoc_cases off d.zext l with ⟨-, h'⟩ | ⟨-, h'⟩ | ⟨rfl, h'⟩ | ⟨_, _, _, _, h'⟩ | ⟨_, -, -, h'⟩ |
    ⟨_, _, -, -, h'⟩ | ⟨-, h'⟩
  · rcases s.issue_cases d.zext with ⟨x, h''⟩ | ⟨i, -, -, h''⟩
    · exact .inl (by rw [h, h', h'', State.raise_tag])
    · exact .inl (by rw [h, h', h''])
  · exact .inl (by rw [h, h', State.acknowledge_tag])
  · exact .inr ⟨offset_eq hl rfl, hd, by rw [h, h']⟩
  · exact .inl (by rw [h, h'])
  · exact .inl (by rw [h, h', State.setC_tag])
  · exact .inl (by rw [h, h', State.setCoef_tag])
  · exact .inl (by rw [h, h', State.raise_tag])

end Sys2Proof.Machine
end

