-- ==== Sys2Proof/Tests/Slice0.lean ====
section
/-! SUPPORT. The model's own tests. Expected values come from the spec: `95_test_vectors.md` sections 2.1 to 2.6, the
examples of the command rules, and words written out by hand from the formats of `30_encoding.md` rule R71. The
`witness_` theorems at the end show, for each obligation that has hypotheses, a state and operands that meet them
together, clause by clause, at the ends of the ranges. -/

namespace Sys2Proof.Tests

open Sys2Proof.Machine

/-! ### WellFormed refuses an ill-formed term, one for each of its checks (R75 (c)) -/

theorem test_bfct_same_legs_ill_formed : ¬ (Instr.bfct 0 0 1).WellFormed := by decide
theorem test_bfgs_same_legs_ill_formed : ¬ (Instr.bfgs 5 5 0).WellFormed := by decide
theorem test_bfct_two_legs_well_formed : (Instr.bfct 14 15 127).WellFormed := by decide

/-! ### Decoding: one word per constructor, from section 2.3 (bit by bit where it is written in binary, from R71) -/

theorem test_decode_nop : decode 0x00000000#32 = .ok .nop := by decide
theorem test_decode_zall : decode 0b00000001000000000000000000000000#32 = .ok .zall := by decide
theorem test_decode_mmul : decode 0b00010000001100010010000000000000#32 = .ok (.mmul 3 1 2) := by decide
theorem test_decode_madd : decode 0x11012000#32 = .ok (.madd 0 1 2) := by decide
theorem test_decode_msub : decode 0x12012000#32 = .ok (.msub 0 1 2) := by decide
theorem test_decode_bfct : decode 0b00010011111011110111111100000000#32 = .ok (.bfct 14 15 127) := by decide
theorem test_decode_bfgs : decode 0x14100000#32 = .ok (.bfgs 1 0 0) := by decide
theorem test_decode_ldi : decode 0b00010101111100000000110100000000#32 = .ok (.ldi 15 3328#12) := by decide
theorem test_decode_ldc : decode 0b00010110010100100001000100000000#32 = .ok (.ldc 5 2 17) := by decide
theorem test_decode_stc : decode 0x1753FF00#32 = .ok (.stc 5 3 255) := by decide
theorem test_decode_padd : decode 0x20312000#32 = .ok (.padd 3 1 2) := by decide
theorem test_decode_psub : decode 0x21112000#32 = .ok (.psub 1 1 2) := by decide
theorem test_decode_pmul : decode 0b00100010001000000001000000000000#32 = .ok (.pmul 2 0 1) := by decide
theorem test_decode_pntt : decode 0x23100000#32 = .ok (.pntt 1 0) := by decide
theorem test_decode_pintt : decode 0x24FE0000#32 = .ok (.pintt 15 14) := by decide
theorem test_decode_pcopy : decode 0x25400000#32 = .ok (.pcopy 4 0) := by decide
theorem test_decode_pzero : decode 0x26F00000#32 = .ok (.pzero 15) := by decide
theorem test_decode_ctclr : decode 0x30000000#32 = .ok .ctclr := by decide
theorem test_decode_ctacc : decode 0x31000000#32 = .ok .ctacc := by decide
theorem test_decode_csel : decode 0b00110010000000000000000000000000#32 = .ok .csel := by decide

/-- The word is refused on the ground `e`. -/
def refusedAs (e : Illegal) (w : Word) : Bool :=
  match decode w with
  | .error e' => e' == e
  | .ok _ => false

/-- The illegal words of section 2.3: unassigned opcodes. -/
theorem test_decode_unassigned : [0x02000000#32, 0x0F000000#32, 0x18000000#32, 0x27000000#32, 0x33000000#32,
    0xFF000000#32, 0xFFFFFFFF#32].all (refusedAs .unknownOpcode) = true := by decide

/-- The illegal words of section 2.3: a must-be-zero bit is 1. -/
theorem test_decode_must_be_zero : [0x00000001#32, 0x01800000#32, 0x10312001#32, 0x10312800#32, 0x13018000#32,
    0x13010001#32, 0x13010180#32, 0x15201549#32, 0x15210000#32, 0x16521101#32, 0x20312001#32, 0x23100001#32,
    0x23101000#32, 0x26900001#32, 0x26980000#32, 0x26090000#32, 0x32000001#32, 0x31100000#32].all (refusedAs .mustBeZero) = true := by
  decide

/-- The illegal words of section 2.3: `ca = cb`. -/
theorem test_decode_same_legs : decode 0x13000100#32 = .error .sameLegs ∧ decode 0x14550000#32 = .error .sameLegs := by
  decide

/-- R78: an example word per format, built by the encoder. -/
theorem test_encode_examples : encode .csel = 0x32000000#32 ∧ encode (.mmul 3 1 2) = 0x10312000#32 ∧
    encode (.bfct 0 1 64) = 0x13014000#32 ∧ encode (.ldi 2 1353#12) = 0x15200549#32 ∧
    encode (.ldc 5 2 17) = 0x16521100#32 ∧ encode (.padd 3 1 2) = 0x20312000#32 ∧
    encode (.pntt 1 0) = 0x23100000#32 ∧ encode (.pzero 9) = 0x26900000#32 := by decide

/-! ### Scalar functions (section 2.1) -/

/-- The datapath traces of section 2.1: `a`, `b`, `m`, `S`, `t`, MM(a, b). -/
theorem test_mm_traces : ∀ r ∈ [(1, 1, 3327, 11075584, 169, 169), (1, 3328, 62208, 207093760, 3160, 3160),
    (3328, 3328, 0, 11075584, 169, 169), (1000, 2000, 64384, 216334336, 3301, 3301),
    (29, 3293, 65527, 218234880, 3330, 1), (3276, 3313, 65524, 228982784, 3494, 165)],
    let a := BitVec.ofNat 12 r.1
    let b := BitVec.ofNat 12 r.2.1
    (mmM a b).toNat = r.2.2.1 ∧ (mmS a b).toNat = r.2.2.2.1 ∧ (mmQuot a b).toNat = r.2.2.2.2.1 ∧
      (mmDatapath a b).toNat = r.2.2.2.2.2 ∧ (mm a b).toNat = r.2.2.2.2.2 := by decide

theorem test_maddq : maddq 3328#12 1#12 = 0#12 ∧ maddq 1#12 3327#12 = 3328#12 ∧ maddq 3328#12 3328#12 = 3327#12 ∧
    maddqDatapath 3328#12 3328#12 = 3327#12 := by decide

theorem test_msubq : msubq 0#12 1#12 = 3328#12 ∧ msubq 1#12 3328#12 = 2#12 ∧ msubq 100#12 200#12 = 3229#12 ∧
    msubqDatapath 100#12 200#12 = 3229#12 := by decide

/-! ### Small states -/

/-- The reset state with the scalar registers of a list. -/
def withRegs (l : List (CReg × Coef)) : State := l.foldl (fun s r => s.setC r.1 r.2) State.reset

/-- The reset state with one slot and its tag. -/
def withElt (p : Slot) (l : List Coef) (b : Bool) : State := State.reset.writeSlot p (ofCoefs l) b

/-- A fact about the next state; false where there is none. -/
def after (o : Host.Outcome State Fault Refusal) (f : State → Bool) : Bool :=
  match o with
  | .next t => f t
  | .fault _ => false
  | .refused _ => false

/-! ### Commands (sections 2.1, 2.2, 2.4 and 2.5, and the examples of the rules) -/

theorem test_mmul : after (exec (.mmul 3 1 2) (withRegs [(1, 1000#12), (2, 2000#12)])) (·.c[3] == 3301#12) := by decide
theorem test_mmul_source_is_destination :
    after (exec (.mmul 15 15 15) (withRegs [(15, 3328#12)])) (·.c[15] == 169#12) := by decide
theorem test_madd_wraps : after (exec (.madd 0 1 2) (withRegs [(1, 3328#12), (2, 1#12)])) (·.c[0] == 0#12) := by decide
theorem test_msub_order : after (exec (.msub 0 1 2) (withRegs [(1, 100#12), (2, 200#12)])) (·.c[0] == 3229#12) := by
  decide
theorem test_ldi : after (exec (.ldi 2 1353#12) State.reset) (·.c[2] == 1353#12) := by decide
theorem test_ldc : after (exec (.ldc 0 15 255) (State.reset.setCoef 15 255 77#12)) (·.c[0] == 77#12) := by
  decide +kernel
theorem test_stc : after (exec (.stc 5 3 255) (withRegs [(5, 9#12)]))
    (fun t => t.coefAt 3 255 == 9#12 && t.coefAt 3 254 == 0#12 && t.tag == 0#16) := by decide +kernel
theorem test_bfct : after (exec (.bfct 0 1 1) (withRegs [(0, 5#12), (1, 7#12)]))
    (fun t => t.c[0] == 2121#12 && t.c[1] == 1218#12) := by decide
theorem test_bfct_last_root : after (exec (.bfct 0 1 127) (withRegs [(0, 3328#12), (1, 3328#12)]))
    (fun t => t.c[0] == 1174#12 && t.c[1] == 2153#12) := by decide
theorem test_bfgs : after (exec (.bfgs 0 1 64) (withRegs [(0, 1#12), (1, 2#12)]))
    (fun t => t.c[0] == 3#12 && t.c[1] == 17#12) := by decide
theorem test_bfgs_undoes_bfct : after (exec (.bfgs 0 1 6) (withRegs [(0, 2927#12), (1, 602#12)]))
    (fun t => t.c[0] == 200#12 && t.c[1] == 400#12) := by decide

/-- R131's example. -/
theorem test_padd : after (exec (.padd 3 1 2) ((withElt 1 [3328#12] false).writeSlot 2 (ofCoefs [2#12]) false))
    (fun t => t.coefAt 3 0 == 1#12 && t.coefAt 3 1 == 0#12 && !t.tagOf 3) := by decide +kernel

/-- R132's example, in place. -/
theorem test_psub : after (exec (.psub 1 1 2)
      ((withElt 1 [] true).writeSlot 2 (ofCoefs [0#12, 0#12, 0#12, 0#12, 0#12, 1#12]) true))
    (fun t => t.coefAt 1 5 == 3328#12 && t.tag == 6#16) := by decide +kernel

/-- R135's example, pair 0: `(1 + 2x)(3 + 2154x)`. -/
theorem test_pmul_pair : pairProduct 0 1#12 2#12 3#12 2154#12 = (1#12, 2160#12) ∧
    pairProductDatapath 0 1#12 2#12 3#12 2154#12 = (1#12, 2160#12) := by decide

/-- Section 2.4: all values 3328 in both operands; `h[2i] = (1 + GAMMA(i)) mod q`, `h[2i+1] = 2`. -/
theorem test_pmul : after (exec (.pmul 2 0 1)
      ((withElt 0 (List.replicate 256 3328#12) true).writeSlot 1 (ofCoefs (List.replicate 256 3328#12)) true))
    (fun t => (t.slot 2).toList.take 8 == [18#12, 2#12, 3313#12, 2#12, 2762#12, 2#12, 569#12, 2#12] &&
      (t.slot 2).toList.drop 252 == [2155#12, 2#12, 1176#12, 2#12] && t.tag == 7#16) := by decide +kernel

/-- Section 2.4: `x^2` maps to `GAMMA(0), 0, GAMMA(1), 0, ...`. -/
theorem test_pntt : after (exec (.pntt 1 0) (withElt 0 [0#12, 0#12, 1#12] false))
    (fun t => (t.slot 1).toList.take 8 == [17#12, 0#12, 3312#12, 0#12, 2761#12, 0#12, 568#12, 0#12] &&
      (t.slot 1).toList.drop 248 == [885#12, 0#12, 2444#12, 0#12, 2154#12, 0#12, 1175#12, 0#12] && t.tag == 2#16) := by
  decide +kernel

/-- Section 2.4: the all-ones array maps to `1 + x`. -/
theorem test_pintt : after (exec (.pintt 2 2) (withElt 2 (List.replicate 256 1#12) true))
    (fun t => (t.slot 2).toList == [1#12, 1#12] ++ List.replicate 254 0#12 && t.tag == 0#16) := by decide +kernel

theorem test_pcopy : after (exec (.pcopy 4 0) (withElt 0 [7#12] true))
    (fun t => t.coefAt 4 0 == 7#12 && t.tag == 0x11#16) := by decide +kernel
theorem test_pzero : after (exec (.pzero 0) (withElt 0 [7#12] true)) (fun t => t.coefAt 0 0 == 0#12 && t.tag == 0#16) := by
  decide +kernel

/-- The CTACC sequence of section 2.5, its second row. -/
theorem test_ctacc : after (exec .ctacc { State.reset with cmpa := 0x55667788#32, cmpb := 0x55677788#32 })
    (·.diff == 0x00010000#32) := by decide
theorem test_ctacc_keeps_bits : after (exec .ctacc { State.reset with
      diff := 0x00010000#32, cmpa := 0x12345678#32, cmpb := 0x12345679#32 }) (·.diff == 0x00010001#32) := by decide
theorem test_ctclr : after (exec .ctclr { State.reset with diff := 0xFFFFFFFF#32 }) (·.diff == 0#32) := by decide

/-- The table of `nz` and `M` of section 2.5. -/
theorem test_select_mask : selectMask 0x00000000#32 = 0#32 ∧ selectMask 0x00000001#32 = 0xFFFFFFFF#32 ∧
    selectMask 0x80000000#32 = 0xFFFFFFFF#32 ∧ selectMask 0x7FFFFFFF#32 = 0xFFFFFFFF#32 := by decide

theorem test_csel_mismatch : after (exec .csel { State.reset with
      diff := 0x00010000#32, ka := #v[1, 2, 3, 4, 5, 6, 7, 8], kb := #v[11, 12, 13, 14, 15, 16, 17, 18] })
    (·.kout == #v[11, 12, 13, 14, 15, 16, 17, 18]) := by decide
theorem test_csel_match : after (exec .csel { State.reset with
      ka := #v[1, 2, 3, 4, 5, 6, 7, 8], kb := #v[11, 12, 13, 14, 15, 16, 17, 18] })
    (·.kout == #v[1, 2, 3, 4, 5, 6, 7, 8]) := by decide

theorem test_nop : after (exec .nop { State.reset with diff := 3#32 }) (·.diff == 3#32) := by decide
theorem test_zall_keeps_the_fault_record : after (exec .zall { withRegs [(1, 5#12)] with
      diff := 3#32, err := 0x10#5, faddr := 0x20#15, fdata := 9#32 })
    (fun t => t.c[1] == 0#12 && t.diff == 0#32 && t.err == 0x10#5 && t.faddr == 0x20#15 && t.fdata == 0#32) := by
  decide +kernel

/-! ### Transactions and faults (section 2.6) -/

/-- One transaction of the host, on a state with no other event to come. -/
def host (t : Txn) (s : State) : Host.Outcome State Fault Refusal := step { s with events := [.host t] }

/-- ERR, FADDR and FDATA are as given, PEND is empty. -/
def recorded (err : BitVec 5) (faddr : BitVec 15) (fdata : Word) (t : State) : Bool :=
  t.err == err && t.faddr == faddr && t.fdata == fdata && t.pend == none

/-- Row 1. -/
theorem test_domain_fault : after (host (.write 4#15 (.word 0x22201000#32)) State.reset)
    (recorded 0x02#5 4#15 0x22201000#32) := by decide
/-- Row 2: the capture registers keep the first fault. -/
theorem test_range_fault_second : after (host (.write 0x4000#15 (.word 3329#32))
      { State.reset with err := 2#5, faddr := 4#15, fdata := 0x22201000#32 })
    (fun t => recorded 0x06#5 4#15 0x22201000#32 t && t.coefAt 0 0 == 0#12) := by decide +kernel
/-- R172's example. -/
theorem test_illcmd_fault : after (host (.write 4#15 (.word 0x10312001#32)) State.reset)
    (recorded 0x01#5 4#15 0x10312001#32) := by decide
/-- R176's example: a 2-byte write. -/
theorem test_access_fault_half : after (host (.write 0x0100#15 (.half 5#16)) State.reset)
    (recorded 0x10#5 0x0100#15 5#32) := by decide
/-- Row 5: a read of CMD returns 0. -/
theorem test_access_fault_read : after (host (.read 4#15 .four) State.reset)
    (fun t => recorded 0x10#5 4#15 0#32 t && t.replies == [0#32]) := by decide
/-- Row 6: ERR is cleared by ones, the capture registers keep their values. -/
theorem test_acknowledge : after (host (.write 0xC#15 (.word 0x1F#32))
      { State.reset with err := 0x17#5, faddr := 4#15, fdata := 7#32 }) (recorded 0#5 4#15 7#32) := by decide
/-- Row 7: PNTT p1, p0 is accepted. -/
theorem test_issue_accepted : after (host (.write 4#15 (.word 0x23100000#32)) State.reset)
    (fun t => t.pend == some 0x23100000#32 && t.err == 0#5) := by decide
/-- Row 8: a read of COEF while busy. -/
theorem test_busyacc_fault : after (host (.read 0x4400#15 .four) { State.reset with pend := some 0x23100000#32 })
    (fun t => t.err == 8#5 && t.faddr == 0x4400#15 && t.replies == [0#32] && t.pend == some 0x23100000#32) := by decide
/-- While busy STATUS stays readable. -/
theorem test_status_while_busy : after (host (.read 8#15 .four) { State.reset with pend := some 0#32, err := 8#5 })
    (fun t => t.replies == [3#32] && t.err == 8#5) := by decide
/-- Row 14: `LDI c2, 3329`. -/
theorem test_ldi_range_fault : after (host (.write 4#15 (.word 0x15200D01#32)) State.reset)
    (fun t => recorded 0x04#5 4#15 0x15200D01#32 t && t.c[2] == 0#12) := by decide
/-- Rows 17 and 18: an unmapped and a misaligned offset. -/
theorem test_access_fault_offsets : after (host (.write 0x1C#15 (.word 0#32)) State.reset) (recorded 0x10#5 0x1C#15 0#32) ∧
    after (host (.write 0x4002#15 (.word 1#32)) State.reset) (recorded 0x10#5 0x4002#15 1#32) := by decide
/-- Row 21: the root table reads. -/
theorem test_zeta_reads : State.reset.hostRead 0x204#15 .four = (State.reset, 2571#32) ∧
    State.reset.hostRead 0x3FC#15 .four = (State.reset, 1628#32) := by decide +kernel
/-- Row 23: DOMTAG ignores the high half. -/
theorem test_domtag_write : after (host (.write 0x18#15 (.word 0xFFFF0005#32)) State.reset) (·.tag == 5#16) := by decide
/-- Row 25: the whole 32-bit value is compared. -/
theorem test_range_whole_word : after (host (.write 0x13C#15 (.word 0x80000001#32)) (withRegs [(15, 3328#12)]))
    (fun t => recorded 4#5 0x13C#15 0x80000001#32 t && t.c[15] == 3328#12) := by decide
/-- Row 22. -/
theorem test_id_read : (State.reset.hostRead 0#15 .four).2 = 0x4D4D0D01#32 := by decide

/-- R177: a 2-byte write to CMD while busy is ACCESS, a wrong value to C[0] while busy is BUSYACC. -/
theorem test_fault_priority : after (host (.write 4#15 (.half 0#16)) { State.reset with pend := some 0#32 })
      (fun t => t.err == 0x10#5) ∧
    after (host (.write 0x100#15 (.word 5000#32)) { State.reset with pend := some 0#32 }) (fun t => t.err == 8#5) := by
  decide

/-- The host's two questions, on one word. -/
theorem test_fetch_word : decodeTableWord 32 0x10312000 = some (.mmul 3 1 2) ∧
    after (step ((withRegs [(1, 1000#12), (2, 2000#12)]).withFetchWord 32 0x10312000))
      (fun t => t.c[3] == 3301#12 && t.pend == none && t.events == []) := by decide

/-! ### Witnesses for the hypotheses of the obligations -/

/-- The next state of a step has a property; false where the step stops. -/
def stepGives (s : State) (f : State → Bool) : Bool := after (step s) f

/-- The reset state with one event to come. -/
def withEvent (e : Event) : State := { State.reset with events := [e] }

/-- The reset state with a command pending and the engine's turn next. -/
def pending (w : Word) : State := { State.reset with pend := some w, events := [.engine] }

/-- A state whose every coefficient is at the top of the range. -/
def topElt : RingElt := Vector.replicate 256 3328#12

theorem topElt_canonical : CanonicalElt topElt := fun i => by
  rw [topElt, Fin.getElem_fin, Vector.getElem_replicate]
  unfold Canonical
  decide

theorem top_canonical : Canonical 3328#12 := by
  unfold Canonical
  decide

theorem witness_EncodeThenDecode : (Instr.bfgs 0 15 127).WellFormed ∧ (Instr.ldi 15 0xFFF#12).WellFormed := by decide

theorem witness_DecodedWord : decode 0x13EF7F00#32 = .ok (.bfct 14 15 127) ∧ decode 0x15F00FFF#32 = .ok (.ldi 15 0xFFF#12) := by
  decide

/-- A word of no row; a row's opcode with the mask failing; equal legs; a legal word of BFCT and of another row. -/
theorem witness_DecodeFollowsRow :
    (opcodeTable.all fun r => opcodeOf r.2.1 != opcodeOf 0x33000000#32) = true ∧
    ("CSEL", 0x32000000#32, 0xFFFFFFFF#32) ∈ opcodeTable ∧ opcodeOf 0x32000001#32 = opcodeOf 0x32000000#32 ∧
    0x32000001#32 &&& 0xFFFFFFFF#32 ≠ 0x32000000#32 ∧ 0x32000000#32 &&& 0xFFFFFFFF#32 = 0x32000000#32 ∧
    ("BFCT", 0x13000000#32, 0xFF0080FF#32) ∈ opcodeTable ∧ 0x13FF0000#32 &&& 0xFF0080FF#32 = 0x13000000#32 ∧
    (0x13FF0000#32).extractLsb' 20 4 = (0x13FF0000#32).extractLsb' 16 4 ∧
    0x13FE7F00#32 &&& 0xFF0080FF#32 = 0x13000000#32 ∧
    (0x13FE7F00#32).extractLsb' 20 4 ≠ (0x13FE7F00#32).extractLsb' 16 4 := by decide

theorem witness_IllegalWords : decode 0xFFFFFFFF#32 = .error .unknownOpcode ∧ decode 0x32000001#32 = .error .mustBeZero ∧
    decode 0x14550000#32 = .error .sameLegs ∧ State.reset.pend = none := by decide

/-- A tagged pair of slots: p1 normal, p2 and p3 NTT. -/
def tagged : State := { State.reset with tag := 0x000C#16 }

theorem witness_Issue : tagged.pend = none ∧ decode 0x18000000#32 = .error .unknownOpcode ∧
    decode 0x15200D01#32 = .ok (.ldi 2 3329#12) ∧ (3329#12).toNat = 3329 ∧
    decode 0x15200D00#32 = .ok (.ldi 2 3328#12) ∧
    decode 0x20012000#32 = .ok (.padd 0 1 2) ∧ decode 0x21012000#32 = .ok (.psub 0 1 2) ∧
    tagged.tagOf 1 ≠ tagged.tagOf 2 ∧ decode 0x22012000#32 = .ok (.pmul 0 1 2) ∧
    ¬(tagged.tagOf 1 = true ∧ tagged.tagOf 2 = true) ∧
    decode 0x22023000#32 = .ok (.pmul 0 2 3) ∧ tagged.tagOf 2 = true ∧ tagged.tagOf 3 = true ∧
    decode 0x23020000#32 = .ok (.pntt 0 2) ∧ decode 0x23010000#32 = .ok (.pntt 0 1) ∧ tagged.tagOf 1 = false ∧
    decode 0x24010000#32 = .ok (.pintt 0 1) ∧ decode 0x24020000#32 = .ok (.pintt 0 2) := by decide

theorem witness_EngineStep : (pending 0x31000000#32).pend = some 0x31000000#32 ∧ decode 0x31000000#32 = .ok .ctacc ∧
    (pending 0x31000000#32).events = [.engine] ∧
    ({ State.reset with pend := some 0x31000000#32 } : State).events = [] := by decide

theorem witness_HostAndIdle : (withEvent (.host (.write 0x18#15 (.word 5#32)))).events =
      [.host (.write 0x18#15 (.word 5#32))] ∧
    (withEvent (.host (.read 0#15 .four))).events = [.host (.read 0#15 .four)] ∧ (withEvent .engine).events = [.engine] ∧
    (withEvent .engine).pend = none ∧ State.reset.events = [] := by decide

/-- The words of the clauses that say when a word with a given opcode is legal, each with its mask bits 0. -/
theorem witness_LegalWhenZero : opcodeOf 0x10FFF000#32 = 0x10#8 ∧ opcodeOf 0x11FFF000#32 = 0x11#8 ∧
    opcodeOf 0x12FFF000#32 = 0x12#8 ∧ opcodeOf 0x13FE7F00#32 = 0x13#8 ∧ opcodeOf 0x14FE7F00#32 = 0x14#8 ∧
    opcodeOf 0x15F00FFF#32 = 0x15#8 ∧ opcodeOf 0x16FFFF00#32 = 0x16#8 ∧ opcodeOf 0x17FFFF00#32 = 0x17#8 ∧
    opcodeOf 0x20FFF000#32 = 0x20#8 ∧ opcodeOf 0x21FFF000#32 = 0x21#8 ∧ opcodeOf 0x22FFF000#32 = 0x22#8 ∧
    opcodeOf 0x23FF0000#32 = 0x23#8 ∧ opcodeOf 0x24FF0000#32 = 0x24#8 ∧ opcodeOf 0x25FF0000#32 = 0x25#8 ∧
    opcodeOf 0x26F00000#32 = 0x26#8 ∧ opcodeOf 0x30000000#32 = 0x30#8 ∧ opcodeOf 0x31000000#32 = 0x31#8 ∧
    opcodeOf 0x32000000#32 = 0x32#8 ∧ opcodeOf 0x00000000#32 = 0x00#8 ∧ opcodeOf 0x01000000#32 = 0x01#8 := by decide

/-- The hypotheses of the command statements: nothing pending, two legs, an immediate on each side of q, tags that pass
and tags that fail. -/
theorem witness_Commands : State.reset.pend = none ∧ (14 : CReg) ≠ 15 ∧ (3328#12).toNat < 3329 ∧ ¬(3329#12).toNat < 3329 ∧
    tagged.pend = none ∧ tagged.tagOf 2 = tagged.tagOf 3 ∧ tagged.tagOf 1 ≠ tagged.tagOf 2 ∧ tagged.tagOf 1 = false ∧
    tagged.tagOf 2 = true := by decide

theorem witness_Csel : State.reset.diff = 0#32 ∧ ({ State.reset with diff := 0x80000000#32 } : State).diff ≠ 0#32 := by
  decide

theorem witness_ArrayCommands : Instr.pmul 15 14 0 ∈ [Instr.padd 15 14 0, .psub 15 14 0, .pmul 15 14 0, .pntt 15 14,
    .pintt 15 14, .pcopy 15 14, .pzero 15] ∧ (tagged.setSlot 14 topElt).InRange :=
  ⟨by decide, State.InRange.setSlot (s := tagged) reset_inRange 14 topElt_canonical⟩

/-- For the statements about two, or four, canonical coefficients. -/
theorem witness_Canonical : Canonical 3328#12 ∧ Canonical 0#12 := ⟨top_canonical, canonical_zero⟩

theorem witness_RootTable : 1 ≤ 127 ∧ 127 < 128 ∧ zbar 1 = 1 ∧ zbar 127 = 64 := by decide

theorem witness_InverseButterfly : (0 : CReg) ≠ 15 ∧ 1 ≤ (127 : RootIdx).val ∧ (64 : RootIdx).val = zbar (127 : RootIdx) ∧
    Canonical ((withRegs [(0, 3328#12), (15, 3328#12)]).c[(0 : CReg)]) ∧
    Canonical ((withRegs [(0, 3328#12), (15, 3328#12)]).c[(15 : CReg)]) :=
  ⟨by decide, by decide, by decide, top_canonical, top_canonical⟩

theorem witness_Layers : 2 ∈ [2, 4, 8, 16, 32, 64, 128] ∧ 128 ∈ [2, 4, 8, 16, 32, 64, 128] ∧ 127 < 128 := by decide

/-- For the laws of the transforms over one or two ring elements in range. -/
theorem witness_Transforms : CanonicalElt topElt ∧ CanonicalElt ringZero := ⟨topElt_canonical, ringZero_canonical⟩

theorem witness_PseudoInstructions : (2 : CReg) ≠ 0 ∧ (2 : CReg) ≠ 1 := by decide

theorem witness_Raise : State.reset.err = 0#5 ∧ ({ State.reset with err := 0x10#5 } : State).err ≠ 0#5 := by decide

/-- Every ground of ACCESS, at the ends of its ranges. -/
theorem witness_MalformedTransactions : (WriteData.byte 0#8).width ≠ .four ∧ (WriteData.half 0#16).width ≠ .four ∧
    (0x4001#15).toNat % 4 ≠ 0 ∧ (0x7FFF#15).toNat % 4 ≠ 0 ∧ Width.one ≠ .four := by decide

theorem witness_Unmapped : Unmapped 0x1C ∧ Unmapped 0x88 ∧ Unmapped 0xFC ∧ Unmapped 0x140 ∧ Unmapped 0x1FC ∧
    Unmapped 0x400 ∧ Unmapped 0x3FFC ∧ ¬Unmapped 0x18 ∧ ¬Unmapped 0x84 ∧ ¬Unmapped 0x13C ∧ ¬Unmapped 0x4000 := by
  unfold Unmapped
  omega

theorem witness_ReadOnly : ReadOnly 0 ∧ ReadOnly 8 ∧ ReadOnly 0x10 ∧ ReadOnly 0x14 ∧ ReadOnly 0x60 ∧ ReadOnly 0x7C ∧
    ReadOnly 0x200 ∧ ReadOnly 0x3FC ∧ ¬ReadOnly 0xC ∧ ¬ReadOnly 0x5C ∧ ¬ReadOnly 0x80 := by
  unfold ReadOnly
  omega

theorem witness_WriteOnly : WriteOnly 4 ∧ WriteOnly 0x20 ∧ WriteOnly 0x5C ∧ WriteOnly 0x80 ∧ WriteOnly 0x84 ∧
    ¬WriteOnly 0x18 ∧ ¬WriteOnly 0x60 ∧ ¬WriteOnly 0x7C := by
  unfold WriteOnly
  omega

/-- While a command is pending: a write to CMD and to the last coefficient, a read of DOMTAG and of the last
coefficient. -/
theorem witness_PendingRefuses : (pending 0#32).pend = some 0#32 ∧ (0x0004#15).toNat % 4 = 0 ∧
    (¬Unmapped (0x0004#15).toNat ∧ ¬ReadOnly (0x0004#15).toNat) ∧
    (¬Unmapped (0x7FFC#15).toNat ∧ ¬ReadOnly (0x7FFC#15).toNat ∧ ¬WriteOnly (0x7FFC#15).toNat ∧
      ¬StatusOffset (0x7FFC#15).toNat) ∧
    (¬Unmapped (0x0018#15).toNat ∧ ¬WriteOnly (0x0018#15).toNat ∧ ¬StatusOffset (0x0018#15).toNat) := by
  refine ⟨rfl, rfl, ?_⟩
  simp only [show (0x0004#15).toNat = 0x0004 from rfl, show (0x7FFC#15).toNat = 0x7FFC from rfl,
    show (0x0018#15).toNat = 0x0018 from rfl, Unmapped, ReadOnly, WriteOnly, StatusOffset]
  omega

theorem witness_OutOfRange : State.reset.pend = none ∧ 3329 ≤ (3329#32).toNat ∧ (3328#32).toNat < 3329 ∧
    3329 ≤ (0xFFFFFFFF#32).toNat ∧ decode 0x15F00FFF#32 = .ok (.ldi 15 0xFFF#12) ∧ 3329 ≤ (0xFFF#12).toNat := by decide

/-- For the statements about reads and writes while no command is pending. -/
theorem witness_NotBusy : tagged.pend = none := rfl

theorem witness_ResetDiscards : ({ pending 0x23100000#32 with events := [.reset] } : State).events = [.reset] ∧
    ({ pending 0x23100000#32 with events := [.reset] } : State).pend ≠ none := by decide

theorem witness_Invariant_state : (pending 0x23100000#32).Inv :=
  ⟨reset_inRange, fun w h => by cases h; exact ⟨.pntt 1 0, by decide, by decide⟩⟩

/-- A state with the invariant whose step completes a command. -/
theorem witness_EveryStepKeeps : ∃ t, step (pending 0x23100000#32) = .next t := ⟨_, rfl⟩

theorem witness_TransactionsCannotDisturb : (pending 0x23100000#32).pend = some 0x23100000#32 := rfl

theorem witness_CommandsLeave : ∃ t, exec .zall State.reset = .next t := ⟨_, rfl⟩

/-- ERR: a step that sets bit 0, one that clears bit 4 by acknowledgement, one that clears it by reset. -/
theorem witness_ErrBits : stepGives (withEvent (.host (.write 4#15 (.word 0xFF000000#32)))) (fun t => t.err.getLsbD 0) ∧
    State.reset.err.getLsbD 0 = false ∧
    stepGives { withEvent (.host (.write 0xC#15 (.word 0x10#32))) with err := 0x10#5 } (fun t => !t.err.getLsbD 4) ∧
    stepGives { withEvent .reset with err := 0x10#5 } (fun t => !t.err.getLsbD 4) ∧ (0x10#5).getLsbD 4 = true := by
  decide

/-- PEND: filled by a write to CMD; pending while the host, the engine or the reset has its turn, or no event is left. -/
theorem witness_Pend : stepGives (withEvent (.host (.write 4#15 (.word 0#32)))) (fun t => t.pend == some 0#32) ∧
    stepGives { withEvent (.host (.read 8#15 .four)) with pend := some 0#32 } (fun t => t.pend == some 0#32) ∧
    (pending 0#32).events.head? = some .engine ∧
    stepGives { State.reset with pend := some 0#32 } (fun t => t.pend == none) ∧
    stepGives { withEvent .reset with pend := some 0#32 } (fun t => t.pend == none) := by decide

/-- TAG: a step that changes the tag of slot 15, by DOMTAG and by PZERO. -/
theorem witness_Tags : stepGives (withEvent (.host (.write 0x18#15 (.word 0x8000#32)))) (fun t => t.tagOf 15) ∧
    State.reset.tagOf 15 = false ∧
    stepGives { pending 0x26F00000#32 with tag := 0x8000#16 } (fun t => !t.tagOf 15) := by decide

/-- DIFF: bit 31 cleared by CTCLR and set by CTACC. -/
theorem witness_DiffBits : stepGives { pending 0x30000000#32 with diff := 0x80000000#32 } (fun t => !t.diff.getLsbD 31) ∧
    stepGives { pending 0x31000000#32 with cmpa := 0x80000000#32 } (fun t => t.diff.getLsbD 31) ∧
    State.reset.diff.getLsbD 31 = false := by decide

/-- DIFF hidden: two states that differ in DIFF alone, the next step a read. -/
theorem witness_DiffIsHidden : AgreeButDiff (withEvent (.host (.read 8#15 .four)))
      { withEvent (.host (.read 8#15 .four)) with diff := 1#32 } ∧
    ¬(withEvent (.host (.read 8#15 .four))).Completes .csel ∧
    ∃ s', step (withEvent (.host (.read 8#15 .four))) = .next s' := by
  refine ⟨rfl, ?_, ⟨_, rfl⟩⟩
  rintro ⟨-, w, h, -⟩
  cases h

end Sys2Proof.Tests
end

section
/-! PROOFS. One step of the machine by the next event (`00_scope.md` rule R6), and what a read leaves to the host's
record (`20_memory.md` rule R51). -/

namespace Sys2Proof.Machine

variable {s : State}

/-! ### The step by its event -/

theorem step_of_events_cons {e : Event} {es : List Event} (h : s.events = e :: es) :
    step s = act e (s.withEvents es) := by
  rw [step, h]

theorem step_of_events_nil (h : s.events = []) : step s = complete s := by
  rw [step, h]

theorem complete_of_pend_none (h : s.pend = none) : complete s = .next s := by
  rw [complete, h]

/-! ### A read and the host's record -/

/-- A read by itself records nothing: `State.transact` does. -/
theorem State.hostRead_replies (s : State) (off : Offset) (size : Width) :
    (s.hostRead off size).1.replies = s.replies := by
  rcases s.hostRead_cases off size with ⟨x, h⟩ | ⟨l, -, -, -, h⟩
  · rw [h, State.raise_replies]
  · rw [h]

/-- The record after a read is the value read in front of the record before it. -/
theorem State.transact_read_replies (s : State) (off : Offset) (size : Width) :
    (s.transact (.read off size)).replies = (s.hostRead off size).2 :: s.replies :=
  congrArg _ (s.hostRead_replies off size)

/-- Settles O8: the step is the event's `act`, a read adds to the record only, and a completion with nothing pending
keeps the state. -/
theorem hostAndIdleSteps : Obligations.HostAndIdleSteps := by
  intro s
  refine ⟨fun off d es he => ?write, fun off size es he => ?read, fun es hp he => ?engine, fun hp he => ?idle⟩
  case write => exact step_of_events_cons he
  case read =>
    exact ⟨_, step_of_events_cons he, State.transact_read_replies (s.withEvents es) off size, rfl⟩
  case engine =>
    calc step s = complete (s.withEvents es) := step_of_events_cons he
      _ = .next (s.withEvents es) := complete_of_pend_none hp
  case idle =>
    calc step s = complete s := step_of_events_nil he
      _ = .next s := complete_of_pend_none hp

end Sys2Proof.Machine
end

section
/-! PROOFS. A step with a next state in the words of the statements: whose step it was (`State.Hosts`, `State.Resets`,
`State.Completes`) and what it did, and what a transaction does to ERR, PEND and TAG (`00_scope.md` rule R6). -/

namespace Sys2Proof.Machine

variable {s t : State}

/-! ### Whose step it was -/

/-- A step with a next state is a transaction, a reset, a turn of the engine with nothing pending, or a completion. -/
theorem step_agent_cases (h : step s = .next t) :
    (∃ x es, s.Hosts x ∧ t = (s.withEvents es).transact x) ∨
    (∃ es, s.Resets ∧ t = (s.withEvents es).resetBlock) ∨
    (∃ es, (s.events = [] ∨ s.events.head? = some .engine) ∧ s.pend = none ∧ t = s.withEvents es) ∨
    (∃ i es, s.Completes i ∧ exec i (s.withEvents es).retire = .next t) := by
  rcases step_cases h with ⟨x, es, he, ht⟩ | ⟨es, he, ht⟩ | ⟨es, he, hc⟩ | ⟨he, hc⟩
  · exact .inl ⟨x, es, congrArg List.head? he, ht⟩
  · exact .inr (.inl ⟨es, congrArg List.head? he, ht⟩)
  · rcases complete_cases hc with ⟨hp, ht⟩ | ⟨w, i, hp, hi, hx⟩
    · exact .inr (.inr (.inl ⟨es, .inr (congrArg List.head? he), hp, ht⟩))
    · exact .inr (.inr (.inr ⟨i, es, ⟨.inr (congrArg List.head? he), w, hp, hi⟩, hx⟩))
  · have hs : s.withEvents [] = s := by rw [← he]; rfl
    rcases complete_cases hc with ⟨hp, ht⟩ | ⟨w, i, hp, hi, hx⟩
    · exact .inr (.inr (.inl ⟨[], .inl he, hp, ht.trans hs.symm⟩))
    · exact .inr (.inr (.inr ⟨i, [], ⟨.inl he, w, hp, hi⟩, hs.symm ▸ hx⟩))

/-! ### What a transaction does to ERR, PEND and TAG -/

/-- A fault raised by `x` carries the offset of `x` and, for a write, its data (R170). -/
def Txn.FaultData (x : Txn) (off : Offset) (v : Word) : Prop :=
  (∃ d, x = .write off d ∧ v = d.zext) ∨ ∃ size, x = .read off size ∧ v = 0#32

/-- ERR: the transaction raises one fault, leaves ERR alone, or is the acknowledgement (R31). -/
theorem State.transact_err_cases (s : State) (x : Txn) :
    (∃ cause off v, (s.transact x).err = (s.raise cause off v).err ∧ x.FaultData off v) ∨
    (s.transact x).err = s.err ∨
    (s.pend = none ∧ ∃ v, x = .write 0x000C#15 (.word v) ∧ (s.transact x).err = s.err &&& ~~~(v.setWidth 5)) := by
  cases x with
  | write off d =>
    rcases s.hostWrite_err_cases off d with ⟨c, h⟩ | h | ⟨rfl, hp, hd, h⟩
    · exact .inl ⟨c, off, d.zext, congrArg State.err h, .inl ⟨d, rfl, rfl⟩⟩
    · exact .inr (.inl h)
    · exact .inr (.inr ⟨hp, d.zext, by rw [← hd], h⟩)
  | read off size =>
    rcases s.hostRead_cases off size with ⟨c, h⟩ | ⟨l, -, -, -, h⟩
    · exact .inl ⟨c, off, 0#32, by simp only [State.transact, h], .inr ⟨size, rfl, rfl⟩⟩
    · exact .inr (.inl (by simp only [State.transact, h]))

/-- PEND: it stays, or the transaction is an accepted write to CMD (R30, R81). -/
theorem State.transact_pend_cases (s : State) (x : Txn) :
    (s.transact x).pend = s.pend ∨
    (s.pend = none ∧ ∃ w, x = .write 0x0004#15 (.word w) ∧ (∃ i, decode w = .ok i ∧ issueCheck s i = none) ∧
      (s.transact x).pend = some w) := by
  cases x with
  | write off d =>
    rcases s.hostWrite_pend_cases off d with h | ⟨rfl, hp, hd, hi, h⟩
    · exact .inl h
    · exact .inr ⟨hp, d.zext, by rw [← hd], hi, h⟩
  | read off size =>
    rcases s.hostRead_cases off size with ⟨c, h⟩ | ⟨l, -, -, -, h⟩ <;>
      exact .inl (by simp only [State.transact, h, State.raise_pend])

/-- TAG: it stays, or the transaction is a 4-byte write to DOMTAG (R24, R198). -/
theorem State.transact_tag_cases (s : State) (x : Txn) :
    (s.transact x).tag = s.tag ∨
    ∃ v, x = .write 0x0018#15 (.word v) ∧ (s.transact x).tag = v.setWidth 16 := by
  cases x with
  | write off d =>
    rcases s.hostWrite_tag_cases off d with h | ⟨rfl, hd, h⟩
    · exact .inl h
    · exact .inr ⟨d.zext, by rw [← hd], h⟩
  | read off size =>
    rcases s.hostRead_cases off size with ⟨c, h⟩ | ⟨l, -, -, -, h⟩ <;>
      exact .inl (by simp only [State.transact, h, State.raise_tag])

end Sys2Proof.Machine
end

section
/-! PROOFS. The invariant (`10_state.md` rule R25, `30_encoding.md` rule R81): the reset state has it and every agent's
step keeps it. -/

namespace Sys2Proof.Machine

variable {s t : State}

/-! ### PEND holds an accepted word -/

theorem State.pendAccepted_of_pend_none (h : s.pend = none) : s.PendAccepted := by
  intro w hw
  rw [h] at hw
  cases hw

/-- The checks at issue read the tags and nothing else. -/
theorem State.PendAccepted.congr (h : s.PendAccepted) (hp : t.pend = s.pend) (ht : t.tag = s.tag) :
    t.PendAccepted := by
  intro w hw
  obtain ⟨i, hi, hc⟩ := h w (hp.symm.trans hw)
  exact ⟨i, hi, (issueCheck_congr ht i).trans hc⟩

theorem State.PendAccepted.issueCheck_of_completes (h : s.PendAccepted) {i : Instr} (hi : s.Completes i) :
    issueCheck s i = none := by
  obtain ⟨-, w, hw, hd⟩ := hi
  obtain ⟨j, hj, hc⟩ := h w hw
  cases hd.symm.trans hj
  exact hc

/-- The write to DOMTAG is refused while a command is pending (R175). -/
theorem State.transact_tag_of_pending {w : Word} (hp : s.pend = some w) (x : Txn) : (s.transact x).tag = s.tag := by
  cases x with
  | write off d =>
    obtain ⟨c, e⟩ := s.hostWrite_busy hp off d
    rw [State.transact, e, State.raise_tag]
  | read off size =>
    rcases s.hostRead_cases off size with ⟨c, e⟩ | ⟨l, -, -, -, e⟩ <;>
      simp only [State.transact, e, State.raise_tag]

/-- The tags cannot change under a pending word, and the write that fills PEND is not the one that writes the tags. -/
theorem State.PendAccepted.transact (h : s.PendAccepted) (x : Txn) : (s.transact x).PendAccepted := by
  rcases s.transact_pend_cases x with hp | ⟨-, w, rfl, ⟨i, hi, hc⟩, hw⟩
  · intro w hw
    exact h.congr hp (s.transact_tag_of_pending (hp.symm.trans hw) x) w hw
  · rcases s.transact_tag_cases (.write 0x0004#15 (.word w)) with ht | ⟨v, hv, -⟩
    · intro w' hw'
      cases hw.symm.trans hw'
      exact ⟨i, hi, (issueCheck_congr ht i).trans hc⟩
    · simp at hv

/-! ### The range invariant under a transaction -/

/-- What a write stores is below q (R174). -/
theorem State.InRange.writeLoc (h : s.InRange) (off : Offset) (v : Word) (l : Loc) :
    (s.writeLoc off v l).InRange := by
  rcases s.writeLoc_cases off v l with ⟨-, e⟩ | ⟨-, e⟩ | ⟨-, e⟩ | ⟨_, _, _, _, e⟩ | ⟨i, -, hv, e⟩ | ⟨p, i, -, hv, e⟩ |
    ⟨-, e⟩ <;> rw [e]
  · rcases s.issue_cases v with ⟨x, e'⟩ | ⟨i, -, -, e'⟩ <;> rw [e'] <;> exact h
  · exact h
  · exact h
  · exact h
  · exact h.setC i (canonical_setWidth hv)
  · exact h.setCoef p i (canonical_setWidth hv)
  · exact h

theorem State.InRange.transact (h : s.InRange) (x : Txn) : (s.transact x).InRange := by
  cases x with
  | write off d =>
    rw [State.transact]
    rcases s.hostWrite_cases off d with ⟨c, e⟩ | ⟨l, -, -, -, -, e⟩ <;> rw [e]
    · exact h
    · exact h.writeLoc off d.zext l
  | read off size =>
    simp only [State.transact]
    rcases s.hostRead_cases off size with ⟨c, e⟩ | ⟨l, -, -, -, e⟩ <;> rw [e] <;> exact h

/-! ### Each agent's step -/

theorem State.Inv.withEvents (h : s.Inv) (es : List Event) : (s.withEvents es).Inv :=
  ⟨h.inRange, h.pendAccepted.congr rfl rfl⟩

theorem State.Inv.transact (h : s.Inv) (x : Txn) : (s.transact x).Inv :=
  ⟨h.inRange.transact x, h.pendAccepted.transact x⟩

theorem State.reset_inv : State.reset.Inv := ⟨reset_inRange, State.pendAccepted_of_pend_none rfl⟩

theorem State.resetBlock_inv (s : State) : s.resetBlock.Inv :=
  ⟨State.reset_inv.inRange, State.reset_inv.pendAccepted.congr rfl rfl⟩

/-- Settles O51: the reset state is in range and has nothing pending. -/
theorem invariantHoldsAfterReset : Obligations.InvariantHoldsAfterReset := State.reset_inv

/-- A completion keeps the invariant: the command passed its checks at issue, and it leaves PEND empty. -/
theorem State.Inv.of_completes (h : s.Inv) {i : Instr} (hi : s.Completes i) {es : List Event}
    (hx : exec i (s.withEvents es).retire = .next t) : t.Inv := by
  have hc : issueCheck (s.withEvents es).retire i = none :=
    (issueCheck_congr rfl i).trans (h.pendAccepted.issueCheck_of_completes hi)
  have hr : (s.withEvents es).retire.InRange := h.inRange
  obtain ⟨hp, -, -, -, -⟩ := exec_keeps hx
  exact ⟨exec_inRange hr hc hx, State.pendAccepted_of_pend_none hp⟩

/-- Settles O52, by the agent whose step it was. -/
theorem everyStepKeepsTheInvariant : Obligations.EveryStepKeepsTheInvariant := by
  intro s t h hst
  rcases step_agent_cases hst with ⟨x, es, -, rfl⟩ | ⟨es, -, rfl⟩ | ⟨es, -, -, rfl⟩ | ⟨i, es, hi, hx⟩
  · exact (h.withEvents es).transact x
  · exact State.resetBlock_inv _
  · exact h.withEvents es
  · exact h.of_completes hi hx

end Sys2Proof.Machine
end

section
/-! PROOFS. DIFF is hidden (`10_state.md` rule R29): setting DIFF commutes with every transaction and, up to the new value
of DIFF, with every command but CSEL. -/

namespace Sys2Proof.Machine

variable {s t : State}

/-- `s` with another value of DIFF. -/
def State.withDiff (s : State) (d : Word) : State := { s with diff := d }

theorem agreeButDiff_withDiff (s : State) (d : Word) : AgreeButDiff s (s.withDiff d) := rfl

theorem AgreeButDiff.eq_withDiff (h : AgreeButDiff s t) : t = s.withDiff t.diff :=
  calc t = (t.withDiff 0#32).withDiff t.diff := rfl
    _ = (s.withDiff 0#32).withDiff t.diff := congrArg (State.withDiff · t.diff) h.symm

/-! ### Transactions neither read nor write DIFF -/

theorem State.issue_withDiff (s : State) (d w : Word) : (s.withDiff d).issue w = (s.issue w).withDiff d := by
  cases hw : decode w with
  | error e => rw [State.issue_illegal _ hw, State.issue_illegal _ hw]; rfl
  | ok i =>
    have hi : issueCheck (s.withDiff d) i = issueCheck s i := issueCheck_congr rfl i
    cases hc : issueCheck s i with
    | some x => rw [State.issue_refused _ hw (hi.trans hc), State.issue_refused _ hw hc]; rfl
    | none => rw [State.issue_accepted _ hw (hi.trans hc), State.issue_accepted _ hw hc]; rfl

theorem State.writeLoc_withDiff (s : State) (d : Word) (off : Offset) (v : Word) (l : Loc) :
    (s.withDiff d).writeLoc off v l = (s.writeLoc off v l).withDiff d := by
  cases l
  case cmd => exact s.issue_withDiff d v
  case c i => simp only [State.writeLoc]; split <;> rfl
  case coef p i => simp only [State.writeLoc]; split <;> rfl
  all_goals rfl

theorem State.checkAccess_withDiff (s : State) (d : Word) (isWrite : Bool) (off : Offset) (size : Width) :
    (s.withDiff d).checkAccess isWrite off size = s.checkAccess isWrite off size := rfl

theorem State.readLoc_withDiff (s : State) (d : Word) (l : Loc) : (s.withDiff d).readLoc l = s.readLoc l := by
  cases l <;> rfl

theorem State.hostWrite_withDiff (s : State) (d : Word) (off : Offset) (x : WriteData) :
    (s.withDiff d).hostWrite off x = (s.hostWrite off x).withDiff d := by
  simp only [State.hostWrite, State.checkAccess_withDiff]
  split
  · rfl
  · exact s.writeLoc_withDiff d off x.zext _

theorem State.hostRead_withDiff (s : State) (d : Word) (off : Offset) (size : Width) :
    (s.withDiff d).hostRead off size = ((s.hostRead off size).1.withDiff d, (s.hostRead off size).2) := by
  simp only [State.hostRead, State.checkAccess_withDiff]
  split
  · rfl
  · rw [State.readLoc_withDiff]

theorem State.transact_withDiff (s : State) (d : Word) (x : Txn) :
    (s.withDiff d).transact x = (s.transact x).withDiff d := by
  cases x with
  | write off v => exact s.hostWrite_withDiff d off v
  | read off size => simp only [State.transact, State.hostRead_withDiff]; rfl

/-! ### No command but CSEL takes DIFF anywhere else -/

/-- The commands that give DIFF a new value are CTCLR, CTACC and ZALL; the others keep whatever it holds. -/
theorem exec_withDiff {i : Instr} (hi : i ≠ .csel) (d : Word) (h : exec i s = .next t) :
    ∃ d', exec i (s.withDiff d) = .next (t.withDiff d') := by
  cases i <;> cases h
  case csel => exact absurd rfl hi
  case zall => exact ⟨0#32, rfl⟩
  case ctclr => exact ⟨0#32, rfl⟩
  case ctacc => exact ⟨d ||| (s.cmpa ^^^ s.cmpb), rfl⟩
  all_goals exact ⟨d, rfl⟩

theorem complete_of_pend_some {w : Word} {i : Instr} (hp : s.pend = some w) (hi : decode w = .ok i) :
    complete s = exec i s.retire := by
  simp only [complete, hp, hi]

theorem complete_withDiff (hn : ∀ w, s.pend = some w → decode w ≠ .ok .csel) (d : Word) (h : complete s = .next t) :
    ∃ d', complete (s.withDiff d) = .next (t.withDiff d') := by
  rcases complete_cases h with ⟨hp, rfl⟩ | ⟨w, i, hp, hi, hx⟩
  · exact ⟨d, complete_of_pend_none hp⟩
  · have hne : i ≠ .csel := by
      rintro rfl
      exact hn w hp hi
    obtain ⟨d', hd⟩ := exec_withDiff hne d hx
    exact ⟨d', (complete_of_pend_some (s := s.withDiff d) hp hi).trans hd⟩

theorem step_withDiff (hn : ¬s.Completes .csel) (d : Word) (h : step s = .next t) :
    ∃ d', step (s.withDiff d) = .next (t.withDiff d') := by
  rcases step_cases h with ⟨x, es, he, rfl⟩ | ⟨es, he, rfl⟩ | ⟨es, he, hc⟩ | ⟨he, hc⟩
  · refine ⟨d, (step_of_events_cons (s := s.withDiff d) he).trans ?_⟩
    exact congrArg _ ((s.withEvents es).transact_withDiff d x)
  · exact ⟨0#32, step_of_events_cons (s := s.withDiff d) he⟩
  · have hw : ∀ w, s.pend = some w → decode w ≠ .ok .csel := fun w hp hd =>
      hn ⟨.inr (congrArg List.head? he), w, hp, hd⟩
    obtain ⟨d', hd⟩ := complete_withDiff (s := s.withEvents es) hw d hc
    exact ⟨d', (step_of_events_cons (s := s.withDiff d) he).trans hd⟩
  · have hw : ∀ w, s.pend = some w → decode w ≠ .ok .csel := fun w hp hd => hn ⟨.inl he, w, hp, hd⟩
    obtain ⟨d', hd⟩ := complete_withDiff hw d hc
    exact ⟨d', (step_of_events_nil (s := s.withDiff d) he).trans hd⟩

/-- Settles O60: the second state is the first with another DIFF, and a step carries that difference to DIFF alone. -/
theorem diffIsHiddenUntilCselCompletes : Obligations.DiffIsHiddenUntilCselCompletes := by
  intro s t s' hst hn h
  rw [hst.eq_withDiff]
  obtain ⟨d', hd⟩ := step_withDiff hn t.diff h
  exact ⟨s'.withDiff d', hd, agreeButDiff_withDiff s' d'⟩

end Sys2Proof.Machine
end

section
/-! PROOFS. The fault record (`10_state.md` rules R31 and R32): no command writes ERR or FADDR, and ERR goes on only by
one raised fault, one acknowledgement or reset. -/

namespace Sys2Proof.Machine

variable {s t : State}

/-! ### Commands -/

theorem exec_fdata {i : Instr} (hi : i ≠ .zall) (h : exec i s = .next t) : t.fdata = s.fdata := by
  cases i <;> cases h
  case zall => exact absurd rfl hi
  all_goals rfl

theorem exec_zall_fdata (h : exec .zall s = .next t) : t.fdata = 0#32 := by
  cases h
  rfl

/-- Settles O55: ERR and FADDR by what every command keeps, FDATA command by command. -/
theorem commandsLeaveTheFaultRecord : Obligations.CommandsLeaveTheFaultRecord := by
  intro i s t h
  obtain ⟨-, herr, hfaddr, -, -⟩ := exec_keeps h
  refine ⟨herr, hfaddr, fun hi => exec_fdata hi h, ?_⟩
  rintro rfl
  exact exec_zall_fdata h

/-! ### Steps -/

/-- ERR after a step: one fault is raised by a transaction, nothing changes, the host acknowledges, or the block is
reset. -/
theorem step_err_cases (h : step s = .next t) :
    (∃ x cause off v, s.Hosts x ∧ t.err = (s.raise cause off v).err ∧ x.FaultData off v) ∨
    t.err = s.err ∨
    (s.pend = none ∧ ∃ v, s.Hosts (.write 0x000C#15 (.word v)) ∧ t.err = s.err &&& ~~~(v.setWidth 5)) ∨
    (s.Resets ∧ t.err = 0#5) := by
  rcases step_agent_cases h with ⟨x, es, hx, rfl⟩ | ⟨es, hr, rfl⟩ | ⟨es, -, -, rfl⟩ | ⟨i, es, -, hx⟩
  · rcases (s.withEvents es).transact_err_cases x with ⟨c, off, v, he, hf⟩ | he | ⟨hp, v, rfl, he⟩
    · exact .inl ⟨x, c, off, v, hx, he, hf⟩
    · exact .inr (.inl he)
    · exact .inr (.inr (.inl ⟨hp, v, hx, he⟩))
  · exact .inr (.inr (.inr ⟨hr, rfl⟩))
  · exact .inr (.inl rfl)
  · obtain ⟨-, herr, -, -, -⟩ := exec_keeps hx
    exact .inr (.inl herr)

/-- Settles O56: a fault sets bits, an acknowledgement clears those written as 1, reset clears all. -/
theorem errBitsAreStickyUntilAcknowledged : Obligations.ErrBitsAreStickyUntilAcknowledged := by
  intro s t k h
  rcases step_err_cases h with ⟨x, c, off, v, hx, he, hf⟩ | he | ⟨hp, v, hx, he⟩ | ⟨hr, he⟩
  · refine ⟨fun _ _ => ⟨x, c, off, v, hx, he, hf⟩, fun h1 h0 => ?_⟩
    rw [he, State.raise_err, BitVec.getLsbD_or, h1] at h0
    cases h0
  · rw [he]
    exact ⟨fun h0 h1 => absurd (h0.symm.trans h1) Bool.false_ne_true,
      fun h1 h0 => absurd (h0.symm.trans h1) Bool.false_ne_true⟩
  · refine ⟨fun h0 h1 => ?_, fun h1 h0 => .inr ⟨hp, v, hx, ?_⟩⟩
    · rw [he, BitVec.getLsbD_and, h0] at h1
      cases h1
    · simpa [he, h1] using h0
  · refine ⟨fun _ h1 => ?_, fun _ _ => .inl hr⟩
    rw [he, BitVec.getLsbD_zero] at h1
    cases h1

end Sys2Proof.Machine
end

section
/-! PROOFS. Who may write PEND and TAG (`10_state.md` rules R24 and R30, `70_reset_and_hazards.md` rule R198). -/

/-- The command is one of the array controller with destination `p` (R130 (d)). -/
def Sys2Proof.Instr.WritesSlot (i : Instr) (p : Slot) : Prop :=
  (∃ pa pb, i = .padd p pa pb ∨ i = .psub p pa pb ∨ i = .pmul p pa pb) ∨
    (∃ pa, i = .pntt p pa ∨ i = .pintt p pa ∨ i = .pcopy p pa) ∨ i = .pzero p

namespace Sys2Proof.Machine

variable {s t : State}

/-! ### PEND -/

/-- The host's turn is no other agent's. -/
theorem State.Hosts.not_resets_or_engine {x : Txn} (h : s.Hosts x) :
    ¬(s.Resets ∨ s.events = [] ∨ s.events.head? = some .engine) := by
  rw [State.Hosts] at h
  rintro (hr | he | he)
  · cases h.symm.trans hr
  · rw [he] at h
    cases h
  · cases h.symm.trans he

/-- A step is a transaction, or it is another agent's and leaves PEND empty. -/
theorem step_pend_cases (h : step s = .next t) :
    (∃ x es, s.Hosts x ∧ t = (s.withEvents es).transact x) ∨
    ((s.Resets ∨ s.events = [] ∨ s.events.head? = some .engine) ∧ t.pend = none) := by
  rcases step_agent_cases h with hx | ⟨es, hr, rfl⟩ | ⟨es, ht, hp, rfl⟩ | ⟨i, es, ⟨ht, -⟩, hx⟩
  · exact .inl hx
  · exact .inr ⟨.inl hr, rfl⟩
  · exact .inr ⟨.inr ht, hp⟩
  · obtain ⟨hp, -, -, -, -⟩ := exec_keeps hx
    exact .inr ⟨.inr ht, hp⟩

/-- Settles O57: a transaction keeps PEND or fills it by an accepted issue, every other agent's step leaves it empty. -/
theorem pendIsFilledByIssueAndEmptiedByCompletion : Obligations.PendIsFilledByIssueAndEmptiedByCompletion := by
  intro s t h
  rcases step_pend_cases h with ⟨x, es, hx, rfl⟩ | ⟨ho, hn⟩
  · rcases (s.withEvents es).transact_pend_cases x with hp | ⟨hp, w, rfl, hi, hw⟩
    · refine ⟨fun w hs ht => ?_, fun w hs => ⟨fun ho => absurd ho hx.not_resets_or_engine, fun _ _ => hp.trans hs⟩⟩
      cases (hp.trans hs).symm.trans ht
    · refine ⟨fun w' _ ht => ?_, fun w' hs => ?_⟩
      · cases hw.symm.trans ht
        exact ⟨hx, hi⟩
      · cases hp.symm.trans hs
  · refine ⟨fun w _ ht => ?_, fun w _ => ⟨fun _ => hn, fun x hx => absurd ho hx.not_resets_or_engine⟩⟩
    cases hn.symm.trans ht

/-! ### TAG -/

theorem State.tagOf_congr (h : t.tag = s.tag) (p : Slot) : t.tagOf p = s.tagOf p := congrArg (·.getLsbD p) h

/-- A command leaves the tags alone, is ZALL, or writes the one slot that is its destination. -/
theorem exec_tag_cases {i : Instr} (h : exec i s = .next t) :
    t.tag = s.tag ∨ i = .zall ∨ ∃ pd f b, i.WritesSlot pd ∧ t = s.writeSlot pd f b := by
  cases i <;> cases h
  case zall => exact .inr (.inl rfl)
  case padd pd pa pb => exact .inr (.inr ⟨pd, _, _, .inl ⟨pa, pb, .inl rfl⟩, rfl⟩)
  case psub pd pa pb => exact .inr (.inr ⟨pd, _, _, .inl ⟨pa, pb, .inr (.inl rfl)⟩, rfl⟩)
  case pmul pd pa pb => exact .inr (.inr ⟨pd, _, _, .inl ⟨pa, pb, .inr (.inr rfl)⟩, rfl⟩)
  case pntt pd pa => exact .inr (.inr ⟨pd, _, _, .inr (.inl ⟨pa, .inl rfl⟩), rfl⟩)
  case pintt pd pa => exact .inr (.inr ⟨pd, _, _, .inr (.inl ⟨pa, .inr (.inl rfl)⟩), rfl⟩)
  case pcopy pd pa => exact .inr (.inr ⟨pd, _, _, .inr (.inl ⟨pa, .inr (.inr rfl)⟩), rfl⟩)
  case pzero pd => exact .inr (.inr ⟨pd, _, _, .inr (.inr rfl), rfl⟩)
  all_goals exact .inl rfl

/-- A command that changes the tag of `p` is ZALL or has destination `p`. -/
theorem exec_writesSlot_of_tagOf_ne {i : Instr} {p : Slot} (h : exec i s = .next t) (hne : t.tagOf p ≠ s.tagOf p) :
    i = .zall ∨ i.WritesSlot p := by
  rcases exec_tag_cases h with ht | hz | ⟨pd, f, b, hw, rfl⟩
  · exact absurd (State.tagOf_congr ht p) hne
  · exact .inl hz
  · by_cases hp : p = pd
    · exact .inr (hp ▸ hw)
    · exact absurd (s.writeSlot_tagOf_other f b hp) hne

/-- Settles O58, by the agent whose step it was. -/
theorem tagsChangeOnlyByDomtagOrSlotCommands : Obligations.TagsChangeOnlyByDomtagOrSlotCommands := by
  intro s t p h hne
  rcases step_agent_cases h with ⟨x, es, hx, rfl⟩ | ⟨es, hr, -⟩ | ⟨es, -, -, rfl⟩ | ⟨i, es, hi, hx⟩
  · rcases (s.withEvents es).transact_tag_cases x with ht | ⟨v, rfl, ht⟩
    · exact absurd (State.tagOf_congr (s := s) ht p) hne
    · refine .inr (.inl ⟨v, hx, ?_⟩)
      rw [State.tagOf, ht, BitVec.getLsbD_setWidth]
      simp
  · exact .inl hr
  · exact absurd rfl hne
  · rcases exec_writesSlot_of_tagOf_ne hx hne with rfl | hw
    · exact .inr (.inr (.inl hi))
    · exact .inr (.inr (.inr ⟨i, hi, hw⟩))

end Sys2Proof.Machine
end

section
/-! PROOFS. The read and the write actions of the window, one location after another (`20_memory.md` rules R64 and R65),
and the consistency rule (R58): while a command is pending a transaction reaches the fault record alone. -/

namespace Sys2Proof.Machine

variable {s : State}

/-! ### A transaction at the offset of a location -/

/-- The window ends at 32 KiB (R36), so the offset of a location fits its 15 bits. -/
theorem Loc.toNat_ofNat_offset (l : Loc) : (BitVec.ofNat 15 l.offset).toNat = l.offset := by
  have h : l.offset < 2 ^ 15 := by cases l <;> simp only [Loc.offset] <;> omega
  rw [BitVec.toNat_ofNat, Nat.mod_eq_of_lt h]

theorem State.hostRead_offset (hp : s.pend = none) (l : Loc) (hr : l.readable = true) :
    s.hostRead (BitVec.ofNat 15 l.offset) .four = (s, s.readLoc l) :=
  State.hostRead_of_locate l.toNat_ofNat_offset.symm hr (.inl hp)

theorem State.hostWrite_offset (hp : s.pend = none) (v : Word) (l : Loc) (hw : l.writable = true) :
    s.hostWrite (BitVec.ofNat 15 l.offset) (.word v) = s.writeLoc (BitVec.ofNat 15 l.offset) v l :=
  State.hostWrite_of_locate hp v l.toNat_ofNat_offset.symm hw

/-! ### What the locations that are not stored words read -/

/-- With BUSY 0, STATUS is FAULT in bit 1 (R33). -/
theorem State.statusWord_of_pend_none (hp : s.pend = none) :
    s.statusWord = if s.err = 0#5 then 0#32 else 2#32 := by
  have hb : s.busy = false := by rw [State.busy, hp]; rfl
  rw [State.statusWord, hb]
  split
  · next he => rw [State.faulted, he]; rfl
  · next he => rw [State.faulted, bne_iff_ne.mpr he]; rfl

theorem zeta_setWidth (z : RootIdx) :
    (zeta z).setWidth 32 = BitVec.ofNat 32 (17 ^ brv7 z * 65536 % 3329) := by
  rw [← zeta_toNat z.isLt, BitVec.ofNat_toNat]

/-- Bit `p` of what DOMTAG reads is the tag of slot `p`. -/
theorem State.getLsbD_readLoc_domtag (s : State) (p : Slot) : (s.readLoc .domtag).getLsbD p = s.tagOf p := by
  have h : p.val < 32 := by omega
  simp [State.readLoc, State.tagOf, h]

/-- The tag of slot `p` after a write to DOMTAG is bit `p` of the word written. -/
theorem State.tagOf_writeLoc_domtag (s : State) (off : Offset) (v : Word) (p : Slot) :
    (s.writeLoc off v .domtag).tagOf p = v.getLsbD p := by
  simp [State.writeLoc, State.tagOf]

/-! ### R64 and R65 -/

/-- Settles O47: each clause is a read at a location's offset, which returns `State.readLoc` of it. -/
theorem readsReturnTheLocation : Obligations.ReadsReturnTheLocation := by
  intro s hp
  have read := State.hostRead_offset hp
  refine ⟨read .id rfl, ?status, read .err rfl, read .faddr rfl, read .fdata rfl, read .domtag rfl, fun p => ?tag,
    fun i => read (.kout i) rfl, fun r => read (.c r) rfl, fun z => ?zeta, fun p i => read (.coef p i) rfl⟩
  case status => exact (read .status rfl).trans (congrArg (s, ·) (State.statusWord_of_pend_none hp))
  case tag => exact (congrArg (·.2.getLsbD p) (read .domtag rfl)).trans (s.getLsbD_readLoc_domtag p)
  case zeta => exact (read (.zeta z) rfl).trans (congrArg (s, ·) (zeta_setWidth z))

/-- Settles O48: each clause is a write at a location's offset, which acts by `State.writeLoc` on it. -/
theorem writesActOnTheLocation : Obligations.WritesActOnTheLocation := by
  intro s v hp
  have write := State.hostWrite_offset hp v
  refine ⟨write .cmd rfl, write .err rfl, write .domtag rfl, fun p => ?tag, fun i => write (.ka i) rfl,
    fun i => write (.kb i) rfl, write .cmpa rfl, write .cmpb rfl, fun r => write (.c r) rfl,
    fun p i => write (.coef p i) rfl⟩
  case tag => exact (congrArg (·.tagOf p) (write .domtag rfl)).trans (s.tagOf_writeLoc_domtag _ v p)

/-! ### R58 -/

/-- Settles O54: a pending command refuses every write; a read is refused too, or it changes the record of replies
alone. -/
theorem transactionsCannotDisturbThePendingCommand : Obligations.TransactionsCannotDisturbThePendingCommand := by
  intro s w x hp
  cases x with
  | write off d =>
    obtain ⟨c, h⟩ := s.hostWrite_busy hp off d
    rw [State.transact, h]
    exact s.raise_frame c off d.zext
  | read off size =>
    simp only [State.transact]
    rcases s.hostRead_cases off size with ⟨c, h⟩ | ⟨l, -, -, -, h⟩
    · rw [h]; rfl
    · rw [h]

end Sys2Proof.Machine
end

section
/-! PROOFS. Decoding and encoding (`30_encoding.md` rules R71 to R75 and R80): when a word decodes, the word of every
well-formed command, the command of every legal word, and the decoder against the opcode table. -/

namespace Sys2Proof

variable {w m : Word} {op : BitVec 8} {i : Instr}

/-! ### When a word decodes -/

/-- R80: the opcode has a row, the fixed bits are the row's, and the legs of a butterfly differ. -/
theorem decode_eq_ok_iff :
    decode w = .ok i ↔ ∃ m, rowOf (opcodeOf w) w = some (m, i) ∧ w &&& m = opcodeOf w ++ 0#24 ∧ i.WellFormed := by
  unfold decode
  split
  · next hr => simp [hr]
  · next m j hr =>
    rw [hr]
    constructor
    · intro h
      split at h
      · next hm =>
        split at h
        · next hl =>
          cases h
          exact ⟨m, rfl, hm, hl⟩
        · cases h
      · cases h
    · rintro ⟨_, e, hm, hl⟩
      cases e
      rw [if_pos hm, if_pos hl]

theorem decode_error_iff : (∃ e, decode w = .error e) ↔ ∀ i, decode w ≠ .ok i := by
  cases h : decode w <;> simp

/-- The decoder's row for an opcode, with the fixed bits and the legs as they must be. -/
theorem decode_of_row (ho : opcodeOf w = op) (hr : rowOf op w = some (m, i)) (hm : w &&& m = op ++ 0#24)
    (hl : i.WellFormed) : decode w = .ok i := by
  subst ho
  exact decode_eq_ok_iff.2 ⟨m, hr, hm, hl⟩

/-! ### Decoding the word of a command, one lemma per format -/

theorem decode_s3 (f : Fin 16 → Fin 16 → Fin 16 → Instr)
    (hf : ∀ w, rowOf op w = some (0xFF000FFF#32, f (field1 w) (field2 w) (field3 w))) (x y z : Fin 16)
    (hl : (f x y z).WellFormed) :
    decode (op ++ nibble x ++ nibble y ++ nibble z ++ 0#12) = .ok (f x y z) := by
  obtain ⟨ho, hx, hy, hz⟩ := fields_s3 op (nibble x) (nibble y) (nibble z) 0#12
  refine decode_of_row ho ?_ (Laws.WordMatchesRow.row_s3 _ _ _ _) hl
  rw [hf, field1, field2, field3, hx, hy, hz]
  rfl

theorem decode_sb (f : Fin 16 → Fin 16 → RootIdx → Instr)
    (hf : ∀ w, rowOf op w = some (0xFF0080FF#32, f (field1 w) (field2 w) (fieldZ w))) (x y : Fin 16) (z : RootIdx)
    (hl : (f x y z).WellFormed) :
    decode (op ++ nibble x ++ nibble y ++ 0#1 ++ (BitVec.ofFin z : BitVec 7) ++ 0#8) = .ok (f x y z) := by
  obtain ⟨ho, hx, hy, hz⟩ := fields_sb op (nibble x) (nibble y) 0#1 (BitVec.ofFin z) 0#8
  refine decode_of_row ho ?_ (Laws.WordMatchesRow.row_sb _ _ _ _) hl
  rw [hf, field1, field2, fieldZ, hx, hy, hz]
  rfl

theorem decode_si (f : Fin 16 → BitVec 12 → Instr)
    (hf : ∀ w, rowOf op w = some (0xFF0FF000#32, f (field1 w) (fieldImm w))) (x : Fin 16) (imm : BitVec 12)
    (hl : (f x imm).WellFormed) : decode (op ++ nibble x ++ 0#8 ++ imm) = .ok (f x imm) := by
  obtain ⟨ho, hx, hi⟩ := fields_si op (nibble x) 0#8 imm
  refine decode_of_row ho ?_ (Laws.WordMatchesRow.row_si _ _ _) hl
  rw [hf, field1, fieldImm, hx, hi]
  rfl

theorem decode_sm (f : Fin 16 → Fin 16 → CoefIdx → Instr)
    (hf : ∀ w, rowOf op w = some (0xFF0000FF#32, f (field1 w) (field2 w) (fieldIdx w))) (x y : Fin 16) (z : CoefIdx)
    (hl : (f x y z).WellFormed) :
    decode (op ++ nibble x ++ nibble y ++ (BitVec.ofFin z : BitVec 8) ++ 0#8) = .ok (f x y z) := by
  obtain ⟨ho, hx, hy, hz⟩ := fields_sm op (nibble x) (nibble y) (BitVec.ofFin z) 0#8
  refine decode_of_row ho ?_ (Laws.WordMatchesRow.row_sm _ _ _ _) hl
  rw [hf, field1, field2, fieldIdx, hx, hy, hz]
  rfl

theorem decode_p2 (f : Fin 16 → Fin 16 → Instr)
    (hf : ∀ w, rowOf op w = some (0xFF00FFFF#32, f (field1 w) (field2 w))) (x y : Fin 16)
    (hl : (f x y).WellFormed) : decode (op ++ nibble x ++ nibble y ++ 0#16) = .ok (f x y) := by
  obtain ⟨ho, hx, hy⟩ := fields_p2 op (nibble x) (nibble y) 0#16
  refine decode_of_row ho ?_ (Laws.WordMatchesRow.row_p2 _ _ _) hl
  rw [hf, field1, field2, hx, hy]
  rfl

theorem decode_p1 (f : Fin 16 → Instr) (hf : ∀ w, rowOf op w = some (0xFF0FFFFF#32, f (field1 w))) (x : Fin 16)
    (hl : (f x).WellFormed) : decode (op ++ nibble x ++ 0#20) = .ok (f x) := by
  obtain ⟨ho, hx⟩ := fields_p1 op (nibble x) 0#20
  refine decode_of_row ho ?_ (Laws.WordMatchesRow.row_p1 _ _) hl
  rw [hf, field1, hx]
  rfl

/-- Settles O1, command by command, each by the lemma of its format; the words without fields are five constants. -/
theorem encodeThenDecodeGivesTheCommand : Obligations.EncodeThenDecodeGivesTheCommand := by
  intro i hi
  cases i with
  | nop | zall | ctclr | ctacc | csel => decide
  | mmul cd ca cb => exact decode_s3 .mmul (fun _ => rfl) cd ca cb hi
  | madd cd ca cb => exact decode_s3 .madd (fun _ => rfl) cd ca cb hi
  | msub cd ca cb => exact decode_s3 .msub (fun _ => rfl) cd ca cb hi
  | padd pd pa pb => exact decode_s3 .padd (fun _ => rfl) pd pa pb hi
  | psub pd pa pb => exact decode_s3 .psub (fun _ => rfl) pd pa pb hi
  | pmul pd pa pb => exact decode_s3 .pmul (fun _ => rfl) pd pa pb hi
  | bfct ca cb z => exact decode_sb .bfct (fun _ => rfl) ca cb z hi
  | bfgs ca cb z => exact decode_sb .bfgs (fun _ => rfl) ca cb z hi
  | ldi cd imm => exact decode_si .ldi (fun _ => rfl) cd imm hi
  | ldc c p idx => exact decode_sm .ldc (fun _ => rfl) c p idx hi
  | stc c p idx => exact decode_sm .stc (fun _ => rfl) c p idx hi
  | pntt pd pa => exact decode_p2 .pntt (fun _ => rfl) pd pa hi
  | pintt pd pa => exact decode_p2 .pintt (fun _ => rfl) pd pa hi
  | pcopy pd pa => exact decode_p2 .pcopy (fun _ => rfl) pd pa hi
  | pzero pd => exact decode_p1 .pzero (fun _ => rfl) pd hi

/-- The word that the formats give for a command decodes to the command. -/
theorem decode_of_encode_eq (h : encode i = w) (hi : i.WellFormed) : decode w = .ok i :=
  h ▸ encodeThenDecodeGivesTheCommand i hi

/-- Settles O5: each word is the word of its command. -/
theorem handWrittenWordsDecode : Obligations.HandWrittenWordsDecode :=
  ⟨decode_of_encode_eq rfl rfl, decode_of_encode_eq rfl rfl, decode_of_encode_eq rfl rfl, decode_of_encode_eq rfl rfl,
    decode_of_encode_eq rfl rfl, decode_of_encode_eq rfl rfl, decode_of_encode_eq rfl rfl, decode_of_encode_eq rfl rfl⟩

/-! ### The word of the command that a word decodes to, one lemma per format -/

section
variable (ho : (opcodeOf w).toNat = op.toNat)
include ho

/-- A word without operand fields has all its 32 bits fixed. -/
theorem word_of_fixed (hm : w &&& 0xFFFFFFFF#32 = opcodeOf w ++ 0#24) : (op ++ 0#24 : Word) = w := by
  rw [← BitVec.eq_of_toNat_eq ho, ← hm]
  exact BitVec.and_allOnes

theorem word_of_fields_s3 (hm : w &&& 0xFF000FFF#32 = opcodeOf w ++ 0#24) :
    op ++ nibble (field1 w) ++ nibble (field2 w) ++ nibble (field3 w) ++ 0#12 = w :=
  BitVec.eq_of_toNat_eq ho ▸ rebuild_s3 hm

theorem word_of_fields_sb (hm : w &&& 0xFF0080FF#32 = opcodeOf w ++ 0#24) :
    op ++ nibble (field1 w) ++ nibble (field2 w) ++ 0#1 ++ (BitVec.ofFin (fieldZ w) : BitVec 7) ++ 0#8 = w :=
  BitVec.eq_of_toNat_eq ho ▸ rebuild_sb hm

theorem word_of_fields_si (hm : w &&& 0xFF0FF000#32 = opcodeOf w ++ 0#24) :
    op ++ nibble (field1 w) ++ 0#8 ++ fieldImm w = w :=
  BitVec.eq_of_toNat_eq ho ▸ rebuild_si hm

theorem word_of_fields_sm (hm : w &&& 0xFF0000FF#32 = opcodeOf w ++ 0#24) :
    op ++ nibble (field1 w) ++ nibble (field2 w) ++ (BitVec.ofFin (fieldIdx w) : BitVec 8) ++ 0#8 = w :=
  BitVec.eq_of_toNat_eq ho ▸ rebuild_sm hm

theorem word_of_fields_p2 (hm : w &&& 0xFF00FFFF#32 = opcodeOf w ++ 0#24) :
    op ++ nibble (field1 w) ++ nibble (field2 w) ++ 0#16 = w :=
  BitVec.eq_of_toNat_eq ho ▸ rebuild_p2 hm

theorem word_of_fields_p1 (hm : w &&& 0xFF0FFFFF#32 = opcodeOf w ++ 0#24) : op ++ nibble (field1 w) ++ 0#20 = w :=
  BitVec.eq_of_toNat_eq ho ▸ rebuild_p1 hm

end

/-- The row of an opcode takes each field from where the encoder puts it (R71, R74). The cases are the rows of `rowOf`
in its order. -/
theorem encode_of_rowOf (hr : rowOf (opcodeOf w) w = some (m, i)) (hm : w &&& m = opcodeOf w ++ 0#24) :
    encode i = w := by
  unfold rowOf at hr
  split at hr <;> cases hr
  case h_1 ho | h_2 ho | h_18 ho | h_19 ho | h_20 ho => exact word_of_fixed ho hm
  case h_3 ho | h_4 ho | h_5 ho | h_11 ho | h_12 ho | h_13 ho => exact word_of_fields_s3 ho hm
  case h_6 ho | h_7 ho => exact word_of_fields_sb ho hm
  case h_8 ho => exact word_of_fields_si ho hm
  case h_9 ho | h_10 ho => exact word_of_fields_sm ho hm
  case h_14 ho | h_15 ho | h_16 ho => exact word_of_fields_p2 ho hm
  case h_17 ho => exact word_of_fields_p1 ho hm

/-- Settles O2: the word is the fields of its row's command put together again. -/
theorem decodedWordIsTheWordOfItsCommand : Obligations.DecodedWordIsTheWordOfItsCommand := by
  intro w i h
  obtain ⟨m, hr, hm, hl⟩ := decode_eq_ok_iff.1 h
  exact ⟨encode_of_rowOf hr hm, hl⟩

/-! ### The decoder against the opcode table -/

/-- Every command's word has the fixed bits of a row of the table (R74). -/
theorem wordMatchesRow (i : Instr) : Laws.WordMatchesRow.Statement i := by
  cases i with
  | nop => exact Laws.WordMatchesRow.nop
  | zall => exact Laws.WordMatchesRow.zall
  | mmul cd ca cb => exact Laws.WordMatchesRow.mmul cd ca cb
  | madd cd ca cb => exact Laws.WordMatchesRow.madd cd ca cb
  | msub cd ca cb => exact Laws.WordMatchesRow.msub cd ca cb
  | bfct ca cb z => exact Laws.WordMatchesRow.bfct ca cb z
  | bfgs ca cb z => exact Laws.WordMatchesRow.bfgs ca cb z
  | ldi cd imm => exact Laws.WordMatchesRow.ldi cd imm
  | ldc c p idx => exact Laws.WordMatchesRow.ldc c p idx
  | stc c p idx => exact Laws.WordMatchesRow.stc c p idx
  | padd pd pa pb => exact Laws.WordMatchesRow.padd pd pa pb
  | psub pd pa pb => exact Laws.WordMatchesRow.psub pd pa pb
  | pmul pd pa pb => exact Laws.WordMatchesRow.pmul pd pa pb
  | pntt pd pa => exact Laws.WordMatchesRow.pntt pd pa
  | pintt pd pa => exact Laws.WordMatchesRow.pintt pd pa
  | pcopy pd pa => exact Laws.WordMatchesRow.pcopy pd pa
  | pzero pd => exact Laws.WordMatchesRow.pzero pd
  | ctclr => exact Laws.WordMatchesRow.ctclr
  | ctacc => exact Laws.WordMatchesRow.ctacc
  | csel => exact Laws.WordMatchesRow.csel

theorem opcodeOf_and (w m : Word) : opcodeOf (w &&& m) = opcodeOf w &&& opcodeOf m := BitVec.extractLsb'_and

/-- Every row's mask fixes the opcode, and every row's match is its opcode with all other bits 0. -/
theorem opcodeTable_masks : ∀ r ∈ opcodeTable, opcodeOf r.2.2 = 0xFF#8 ∧ opcodeOf r.2.1 ++ 0#24 = r.2.1 := by decide

/-- A word that decodes has a row with its opcode (R75 (a)). -/
theorem exists_row_of_decode (h : decode w = .ok i) : ∃ r ∈ opcodeTable, opcodeOf r.2.1 = opcodeOf w := by
  obtain ⟨hw, -⟩ := decodedWordIsTheWordOfItsCommand w i h
  obtain ⟨r, hr, -, hm⟩ := wordMatchesRow i
  refine ⟨r, hr, ?_⟩
  rw [← hm, hw, opcodeOf_and, (opcodeTable_masks r hr).1]
  exact BitVec.and_allOnes

/-- The legs of a butterfly's word differ; a word of another row has no legs (R75 (c)). -/
def LegsDiffer (mnemonic : String) (w : Word) : Prop :=
  (mnemonic = "BFCT" ∨ mnemonic = "BFGS") → w.extractLsb' 20 4 ≠ w.extractLsb' 16 4

theorem field1_ne_field2_iff : field1 w ≠ field2 w ↔ w.extractLsb' 20 4 ≠ w.extractLsb' 16 4 := by
  rw [field1, field2, ne_eq, BitVec.toFin_inj]

/-- Only the rows of BFCT and BFGS, the sixth and seventh of `rowOf`, put a condition on their operands (R72). -/
theorem wellFormed_iff_legsDiffer (hr : rowOf op w = some (m, i)) : i.WellFormed ↔ LegsDiffer i.mnemonic w := by
  unfold rowOf at hr
  split at hr <;> cases hr
  case h_6 | h_7 => simp [LegsDiffer, Instr.mnemonic, Instr.WellFormed, Instr.wellFormed, ← field1_ne_field2_iff]
  all_goals exact iff_of_true rfl (by simp [LegsDiffer, Instr.mnemonic])

/-- The decoder's row for the opcode of a row of the table: the same mask, and a command with the same mnemonic. -/
theorem rowOf_of_mem_opcodeTable {r : String × Word × Word} (hr : r ∈ opcodeTable) (w : Word) :
    ∃ i, rowOf (opcodeOf r.2.1) w = some (r.2.2, i) ∧ i.mnemonic = r.1 := by
  fin_cases hr <;> exact ⟨_, rfl, rfl⟩

/-- What a word with the opcode of a row of the table decodes to, and when (R80). -/
theorem decode_eq_ok_iff_of_row {r : String × Word × Word} (hr : r ∈ opcodeTable) (ho : opcodeOf w = opcodeOf r.2.1) :
    ∃ i, i.mnemonic = r.1 ∧ ∀ j, decode w = .ok j ↔ j = i ∧ w &&& r.2.2 = r.2.1 ∧ LegsDiffer r.1 w := by
  obtain ⟨i, hrow, hn⟩ := rowOf_of_mem_opcodeTable hr w
  have hl : i.WellFormed ↔ LegsDiffer r.1 w := hn ▸ wellFormed_iff_legsDiffer hrow
  obtain ⟨-, hmatch⟩ := opcodeTable_masks r hr
  refine ⟨i, hn, fun j => ?_⟩
  rw [decode_eq_ok_iff, ho, hrow, hmatch]
  constructor
  · rintro ⟨m, e, hm, hj⟩
    cases e
    exact ⟨rfl, hm, hl.1 hj⟩
  · rintro ⟨rfl, hm, hlegs⟩
    exact ⟨_, rfl, hm, hl.2 hlegs⟩

theorem decode_error_of_row {r : String × Word × Word} (hr : r ∈ opcodeTable) (ho : opcodeOf w = opcodeOf r.2.1)
    (h : ¬(w &&& r.2.2 = r.2.1 ∧ LegsDiffer r.1 w)) : ∃ e, decode w = .error e := by
  obtain ⟨i, -, hi⟩ := decode_eq_ok_iff_of_row hr ho
  exact decode_error_iff.2 fun j hj => h ((hi j).1 hj).2

/-- Settles O3: without a row no command has the opcode; with one, the mask and the legs decide. -/
theorem decodeFollowsRowThenMaskThenLegs : Obligations.DecodeFollowsRowThenMaskThenLegs := by
  refine ⟨fun w hn => ?noRow, fun r hr w ho => ⟨fun hm => ?mask, fun _ hb hl => ?legs, fun hm hl => ?ok⟩⟩
  case noRow =>
    refine decode_error_iff.2 fun i hi => ?_
    obtain ⟨r, hr, ho⟩ := exists_row_of_decode hi
    exact hn r hr ho
  case mask => exact decode_error_of_row hr ho fun h => hm h.1
  case legs => exact decode_error_of_row hr ho fun h => h.2 hb hl
  case ok =>
    obtain ⟨i, hn, hi⟩ := decode_eq_ok_iff_of_row hr ho
    have hd : decode w = .ok i := (hi i).2 ⟨rfl, hm, hl⟩
    exact ⟨i, hd, hn, (decodedWordIsTheWordOfItsCommand w i hd).1⟩

/-- The 20 opcodes of R74, as R75 (a) lists them. -/
theorem exists_row_iff_mem_opcodes (op : BitVec 8) : (∃ r ∈ opcodeTable, opcodeOf r.2.1 = op) ↔
    op ∈ [0x00#8, 0x01#8, 0x10#8, 0x11#8, 0x12#8, 0x13#8, 0x14#8, 0x15#8, 0x16#8, 0x17#8, 0x20#8, 0x21#8,
      0x22#8, 0x23#8, 0x24#8, 0x25#8, 0x26#8, 0x30#8, 0x31#8, 0x32#8] :=
  List.mem_map.symm

/-- The butterflies are the rows with the opcodes 0x13 and 0x14. -/
theorem butterfly_iff_opcode : ∀ r ∈ opcodeTable,
    ((r.1 = "BFCT" ∨ r.1 = "BFGS") ↔ (opcodeOf r.2.1 = 0x13#8 ∨ opcodeOf r.2.1 = 0x14#8)) := by decide

/-- R75: the three grounds on which a word is illegal, which the decoder tests one after the other. -/
theorem decode_error_iff_grounds (w : Word) : (∃ e, decode w = .error e) ↔
    (¬∃ r ∈ opcodeTable, opcodeOf r.2.1 = opcodeOf w) ∨
    (∃ r ∈ opcodeTable, opcodeOf w = opcodeOf r.2.1 ∧ w &&& r.2.2 ≠ r.2.1) ∨
    ((opcodeOf w = 0x13#8 ∨ opcodeOf w = 0x14#8) ∧ w.extractLsb' 20 4 = w.extractLsb' 16 4) := by
  by_cases h : ∃ r ∈ opcodeTable, opcodeOf r.2.1 = opcodeOf w
  case neg =>
    exact iff_of_true (decode_error_iff.2 fun _ hi => h (exists_row_of_decode hi)) (.inl h)
  obtain ⟨r, hr, ho⟩ := h
  have hb := butterfly_iff_opcode r hr
  constructor
  · intro he
    by_contra hn
    obtain ⟨-, hmask, hlegs⟩ : _ ∧ _ ∧ _ := by simpa only [not_or] using hn
    obtain ⟨i, -, hi⟩ := decode_eq_ok_iff_of_row hr ho.symm
    refine decode_error_iff.1 he i ((hi i).2 ⟨rfl, ?_, fun hbf hl => ?_⟩)
    · by_contra hm
      exact hmask ⟨r, hr, ho.symm, hm⟩
    · exact hlegs ⟨ho ▸ hb.1 hbf, hl⟩
  · rintro (hn | ⟨r', hr', ho', hm⟩ | ⟨hop, hl⟩)
    · exact absurd ⟨r, hr, ho⟩ hn
    · exact decode_error_of_row hr' ho' fun h => hm h.1
    · exact decode_error_of_row hr ho.symm fun h => h.2 (hb.2 (ho.symm ▸ hop)) hl

end Sys2Proof
end

section
/-! PROOFS. The life of a command (`30_encoding.md` rules R75, R81 and R82): the refusals and the acceptance of a word
written to CMD, its completion, and progress of every step from the invariant (`60_exceptions.md` rule R178). -/

namespace Sys2Proof.Machine

variable {s : State} {w : Word} {i : Instr}

/-! ### Issue -/

theorem State.writeCmd_illegal (hp : s.pend = none) {e : Illegal} (h : decode w = .error e) :
    s.writeCmd w = s.raise .illcmd 0x0004#15 w :=
  (State.writeCmd_eq_issue hp w).trans (s.issue_illegal h)

theorem State.writeCmd_refused (hp : s.pend = none) {x : Cause} (h : decode w = .ok i) (hc : issueCheck s i = some x) :
    s.writeCmd w = s.raise x 0x0004#15 w :=
  (State.writeCmd_eq_issue hp w).trans (s.issue_refused h hc)

theorem State.writeCmd_accepted (hp : s.pend = none) (h : decode w = .ok i) (hc : issueCheck s i = none) :
    s.writeCmd w = { s with pend := some w } :=
  (State.writeCmd_eq_issue hp w).trans (s.issue_accepted h hc)

/-- Settles O4: R75's grounds are those of the decoder's table, and an illegal word is refused at issue. -/
theorem illegalWordsAreRefused : Obligations.IllegalWordsAreRefused := by
  refine fun w => ⟨?_, fun s ⟨e, he⟩ hp => State.writeCmd_illegal hp he⟩
  rw [decode_error_iff_grounds, exists_row_iff_mem_opcodes]

/-- No test of R81 fails: the immediate and the tags are as the command needs them. -/
theorem issueCheck_eq_none
    (hldi : ∀ cd imm, i = .ldi cd imm → imm.toNat < 3329)
    (hsum : ∀ pd pa pb, i = .padd pd pa pb ∨ i = .psub pd pa pb → s.tagOf pa = s.tagOf pb)
    (hmul : ∀ pd pa pb, i = .pmul pd pa pb → s.tagOf pa = true ∧ s.tagOf pb = true)
    (hntt : ∀ pd pa, i = .pntt pd pa → s.tagOf pa = false)
    (hintt : ∀ pd pa, i = .pintt pd pa → s.tagOf pa = true) : issueCheck s i = none := by
  cases i with
  | ldi cd imm => exact if_neg (Nat.not_le.2 (hldi cd imm rfl))
  | padd pd pa pb => exact if_neg (not_not.2 (hsum pd pa pb (.inl rfl)))
  | psub pd pa pb => exact if_neg (not_not.2 (hsum pd pa pb (.inr rfl)))
  | pmul pd pa pb => exact if_pos (hmul pd pa pb rfl)
  | pntt pd pa => exact if_neg (not_not.2 (hntt pd pa rfl))
  | pintt pd pa => exact if_neg (not_not.2 (hintt pd pa rfl))
  | _ => rfl

/-- Settles O6: each clause is the outcome of the checks at issue for its command. -/
theorem issueAcceptsUnlessATestFails : Obligations.IssueAcceptsUnlessATestFails := by
  intro s w hp
  refine ⟨fun e he => ?illegal, fun cd imm hd hi => ?ldi, fun pd pa pb hd ht => ?sum, fun pd pa pb hd ht => ?mul,
    fun pd pa hd ht => ?ntt, fun pd pa hd ht => ?intt, fun i hd hldi hsum hmul hntt hintt => ?accepted⟩
  case illegal => exact State.writeCmd_illegal hp he
  case ldi => exact State.writeCmd_refused hp hd (if_pos hi)
  case sum => rcases hd with hd | hd <;> exact State.writeCmd_refused hp hd (if_pos ht)
  case mul => exact State.writeCmd_refused hp hd (if_neg ht)
  case ntt => exact State.writeCmd_refused hp hd (if_pos (by simp [ht]))
  case intt => exact State.writeCmd_refused hp hd (if_pos (by simp [ht]))
  case accepted => exact State.writeCmd_accepted hp hd (issueCheck_eq_none hldi hsum hmul hntt hintt)

/-! ### Completion and progress -/

/-- Settles O7: the engine's turn completes the pending command. -/
theorem engineStepRunsThePendingCommand : Obligations.EngineStepRunsThePendingCommand := by
  refine fun s w i hp hi => ⟨fun es he => ?_, fun he => ?_⟩
  · calc step s = complete (s.withEvents es) := step_of_events_cons he
      _ = exec i (s.withEvents es).retire := complete_of_pend_some hp hi
  · calc step s = complete s := step_of_events_nil he
      _ = exec i s.retire := complete_of_pend_some hp hi

/-- A pending word that was accepted decodes, so its completion has a next state (R82). -/
theorem State.PendAccepted.complete_next (h : s.PendAccepted) : ∃ t, complete s = .next t := by
  cases hp : s.pend with
  | none => exact ⟨s, complete_of_pend_none hp⟩
  | some w =>
    obtain ⟨i, hi, -⟩ := h w hp
    rw [complete_of_pend_some hp hi]
    exact exec_next i s.retire

/-- Settles O53, by the agent whose turn it is. -/
theorem noStepFromTheInvariantStops : Obligations.NoStepFromTheInvariantStops := by
  intro s h
  cases he : s.events with
  | nil =>
    rw [step_of_events_nil he]
    exact h.pendAccepted.complete_next
  | cons e es =>
    rw [step_of_events_cons he]
    cases e with
    | host x => exact ⟨_, rfl⟩
    | engine => exact (h.withEvents es).pendAccepted.complete_next
    | reset => exact ⟨_, rfl⟩

end Sys2Proof.Machine
end

section
/-! PROOFS. The pseudo-instructions of `30_encoding.md` rule R79: sequences of writes to scalar registers, and the
Montgomery products they make read as residues modulo q. -/

namespace Sys2Proof.Machine

variable {s t : State} {rs : List CReg}

/-! ### Sequences of commands that write scalar registers -/

theorem execAll_cons {i : Instr} {is : List Instr} (h : exec i s = .next t) : execAll (i :: is) s = execAll is t := by
  rw [execAll, h]

theorem OnlyScalars.refl (rs : List CReg) (s : State) : OnlyScalars rs s s := ⟨rfl, fun _ _ => rfl⟩

/-- One more write to a register of the list stays within the list. -/
theorem OnlyScalars.setC (h : OnlyScalars rs s t) {i : CReg} (hi : i ∈ rs) (v : Coef) :
    OnlyScalars rs s (t.setC i v) := by
  obtain ⟨hframe, hregs⟩ := h
  refine ⟨?_, fun r hr => ?_⟩
  · rw [hframe]
    rfl
  · rw [State.setC_read_other t v (ne_of_mem_of_not_mem hi hr).symm, hregs r hr]

/-- The state after `LDI ct, imm` and then `MMUL cd, ca, ct`. -/
theorem execAll_ldi_mmul (cd ca ct : CReg) (imm : Coef) (s : State) (hct : ct ≠ ca) :
    execAll [.ldi ct imm, .mmul cd ca ct] s = .next ((s.setC ct imm).setC cd (mm s.c[ca] imm)) := by
  rw [execAll_cons rfl, execAll_cons rfl, execAll, State.setC_read_same, State.setC_read_other s imm hct.symm]

/-! ### Montgomery products with the constants of R79 -/

theorem mm_mm_r2_toNat (a b : Coef) : (mm (mm a b) 1353#12).toNat = a.toNat * b.toNat % 3329 := by
  rw [mm_toNat, mm_toNat, show (1353#12).toNat = 1353 from rfl]
  omega

theorem mm_r2_toNat (a : Coef) : (mm a 1353#12).toNat = a.toNat * 65536 % 3329 := by
  rw [mm_toNat, show (1353#12).toNat = 1353 from rfl]
  omega

theorem mm_one_toNat (a : Coef) : (mm a 1#12).toNat = a.toNat * 169 % 3329 := by
  rw [mm_toNat, show (1#12).toNat = 1 from rfl, Nat.mul_one]

/-- Settles O41: each sequence ends with a load of the scratch register and a product with it. -/
theorem pseudoInstructionsGiveTheirResults : Obligations.PseudoInstructionsGiveTheirResults := by
  intro cd ca cb ct s
  have hcd : cd ∈ [cd, ct] := List.mem_cons_self
  have hct : ct ∈ [cd, ct] := List.mem_cons_of_mem _ List.mem_cons_self
  have hrefl := OnlyScalars.refl [cd, ct] s
  refine ⟨fun hne => ?mulq, fun hne => ?toMont, fun hne => ?fromMont⟩
  case mulq =>
    refine ⟨_, (execAll_cons rfl).trans (execAll_ldi_mmul cd cd ct 1353#12 _ hne),
      ((hrefl.setC hcd _).setC hct _).setC hcd _, ?_, ?_⟩
    · rw [State.setC_read_other _ _ hne, State.setC_read_same]
    · rw [State.setC_read_same, State.setC_read_same, mm_mm_r2_toNat]
  case toMont =>
    refine ⟨_, execAll_ldi_mmul cd ca ct 1353#12 s hne, (hrefl.setC hct _).setC hcd _, ?_⟩
    rw [State.setC_read_same, mm_r2_toNat]
  case fromMont =>
    refine ⟨_, execAll_ldi_mmul cd ca ct 1#12 s hne, (hrefl.setC hct _).setC hcd _, ?_⟩
    rw [State.setC_read_same, mm_one_toNat]

end Sys2Proof.Machine
end

section
/-! PROOFS. The words of the scalar commands (`30_encoding.md` rules R71, R75 and R78): which are legal, and the operands
in their places. -/

namespace Sys2Proof.Machine

/-! ### Which words with an opcode are legal -/

/-- A mask that fixes the opcode and the bits `z` asks of a word with that opcode just that its bits `z` are 0. -/
theorem and_mask_eq_iff (w : Word) (z : BitVec 24) :
    w &&& (0xFF#8 ++ z) = opcodeOf w ++ 0#24 ↔ w &&& (0#8 ++ z) = 0#32 := by
  have hw : opcodeOf w ++ w.extractLsb' 0 24 = w := BitVec.extractLsb'_append_extractLsb' (w := 8)
  generalize opcodeOf w = op, w.extractLsb' 0 24 = l at hw ⊢
  subst hw
  have hop : op &&& 0xFF#8 = op := BitVec.and_allOnes
  rw [BitVec.and_append, BitVec.and_append, hop, BitVec.and_zero, show (0#32 : Word) = 0#8 ++ 0#24 from rfl,
    BitVec.append_right_inj, BitVec.append_right_inj]

/-- Where the legs do not matter, a word with a row's opcode is a command when its must-be-zero bits are 0 (R75 (b)). -/
theorem legalWhenZero_of_row {n : String} {op : BitVec 8} {z : BitVec 24}
    (hr : (n, op ++ 0#24, 0xFF#8 ++ z) ∈ opcodeTable) (hn : n ≠ "BFCT" ∧ n ≠ "BFGS") : LegalWhenZero op (0#8 ++ z) := by
  intro w ho
  have hop : opcodeOf (op ++ 0#24 : Word) = op := BitVec.extractLsb'_append_eq_left
  obtain ⟨i, -, hi⟩ := decode_eq_ok_iff_of_row hr (ho.trans hop.symm)
  have hl : LegsDiffer n w := fun h => absurd h (not_or.2 hn)
  rw [← and_mask_eq_iff, ho]
  constructor
  · rintro ⟨j, hj⟩
    obtain ⟨-, hm, -⟩ := (hi j).1 hj
    exact hm
  · exact fun hm => ⟨i, (hi i).2 ⟨rfl, hm, hl⟩⟩

/-! ### The operands in their places, for the formats of the scalar commands -/

theorem field_toNat {k : Nat} (x : BitVec k) (pos : Nat) : field x.toNat pos = x.setWidth 32 <<< pos := by
  rw [field, BitVec.ofNat_toNat]

theorem word_s3_eq_or (op : BitVec 8) (x y z : BitVec 4) :
    (op ++ x ++ y ++ z ++ 0#12 : Word) =
      (op ++ 0#24) ||| field x.toNat 20 ||| field y.toNat 16 ||| field z.toNat 12 := by
  simp only [field_toNat]
  refine word_ext fun i hi => ?_
  simp only [BitVec.getLsbD_append, BitVec.getLsbD_or, BitVec.getLsbD_shiftLeft, BitVec.getLsbD_setWidth]
  interval_cases i <;> simp

theorem word_sm_eq_or (op : BitVec 8) (x y : BitVec 4) (z : BitVec 8) :
    (op ++ x ++ y ++ z ++ 0#8 : Word) =
      (op ++ 0#24) ||| field x.toNat 20 ||| field y.toNat 16 ||| field z.toNat 8 := by
  simp only [field_toNat]
  refine word_ext fun i hi => ?_
  simp only [BitVec.getLsbD_append, BitVec.getLsbD_or, BitVec.getLsbD_shiftLeft, BitVec.getLsbD_setWidth]
  interval_cases i <;> simp

end Sys2Proof.Machine
end

section
/-! PROOFS. The scalar commands (`40_scalar_arith.md` rules R104 to R106, R108 and R109): the word, the one place written
and the value written there. -/

namespace Sys2Proof.Machine

/-- Settles O9: one register is written, with the Montgomery product as a number. -/
theorem mmulStoresTheMontgomeryProduct : Obligations.MmulStoresTheMontgomeryProduct := by
  refine ⟨legalWhenZero_of_row (n := "MMUL") (z := 0xFFF#24) (by decide) (by decide), fun cd ca cb =>
    ⟨word_s3_eq_or 0x10#8 (nibble cd) (nibble ca) (nibble cb), fun s => ⟨_, rfl, s.setC_onlyScalars cd _, ?_⟩⟩⟩
  rw [State.setC_read_same, mm_toNat]

/-- Settles O10: one register is written, with the modular sum as a number. -/
theorem maddStoresTheModularSum : Obligations.MaddStoresTheModularSum := by
  refine ⟨legalWhenZero_of_row (n := "MADD") (z := 0xFFF#24) (by decide) (by decide), fun cd ca cb =>
    ⟨word_s3_eq_or 0x11#8 (nibble cd) (nibble ca) (nibble cb), fun s => ⟨_, rfl, s.setC_onlyScalars cd _, ?_⟩⟩⟩
  rw [State.setC_read_same, maddq_toNat]

/-- Settles O11: one register is written, with the modular difference as a number. -/
theorem msubStoresTheModularDifference : Obligations.MsubStoresTheModularDifference := by
  refine ⟨legalWhenZero_of_row (n := "MSUB") (z := 0xFFF#24) (by decide) (by decide), fun cd ca cb =>
    ⟨word_s3_eq_or 0x12#8 (nibble cd) (nibble ca) (nibble cb), fun s => ⟨_, rfl, s.setC_onlyScalars cd _, ?_⟩⟩⟩
  rw [State.setC_read_same, msubq_toInt]

/-- Settles O13: one register is written; issue tests no tag of a coefficient load. -/
theorem ldcLoadsTheCoefficient : Obligations.LdcLoadsTheCoefficient := by
  refine ⟨legalWhenZero_of_row (n := "LDC") (z := 0xFF#24) (by decide) (by decide),
    fun c p idx => ⟨?word, ?effect, ?issue⟩⟩
  case word => exact word_sm_eq_or 0x16#8 (nibble c) (nibble p) (BitVec.ofFin idx)
  case effect => exact fun s => ⟨_, rfl, s.setC_onlyScalars c _, s.setC_read_same c _⟩
  case issue => exact fun s hp => State.writeCmd_accepted hp (encodeThenDecodeGivesTheCommand (.ldc c p idx) rfl) rfl

/-- Settles O14: one coefficient is written; issue tests no tag of a coefficient store. -/
theorem stcStoresTheCoefficient : Obligations.StcStoresTheCoefficient := by
  refine ⟨legalWhenZero_of_row (n := "STC") (z := 0xFF#24) (by decide) (by decide),
    fun c p idx => ⟨?word, ?effect, ?issue⟩⟩
  case word => exact word_sm_eq_or 0x17#8 (nibble c) (nibble p) (BitVec.ofFin idx)
  case effect => exact fun s => ⟨_, rfl, s.setCoef_onlyCoef p idx _, s.setCoef_read_same p idx _⟩
  case issue => exact fun s hp => State.writeCmd_accepted hp (encodeThenDecodeGivesTheCommand (.stc c p idx) rfl) rfl

end Sys2Proof.Machine
end

section
/-! PROOFS. The properties of the Montgomery product that `40_scalar_arith.md` rule R100 lists: it is commutative and
associative, its unit is 2285, and a product with 1353 puts a value into Montgomery form. -/

namespace Sys2Proof.Machine

theorem mm_comm (a b : Coef) : mm a b = mm b a :=
  BitVec.eq_of_toNat_eq (by rw [mm_toNat, mm_toNat, Nat.mul_comm a.toNat])

theorem mm_assoc (a b c : Coef) : mm (mm a b) c = mm a (mm b c) := by
  refine residue_injective (mm_canonical _ _) (mm_canonical _ _) ?_
  simp only [residue_mm]
  ring

theorem mm_right_comm (a b c : Coef) : mm (mm a b) c = mm (mm a c) b := by
  rw [mm_assoc, mm_comm b, ← mm_assoc]

theorem mm_zero (a : Coef) : mm a 0#12 = 0#12 :=
  BitVec.eq_of_toNat_eq (by rw [mm_toNat]; simp)

/-- 2285 is the Montgomery form of 1. -/
theorem mm_montgomeryOne {a : Coef} (ha : Canonical a) : mm a 2285#12 = a := by
  refine BitVec.eq_of_toNat_eq ?_
  rw [Canonical] at ha
  rw [mm_toNat, show (2285#12).toNat = 2285 from rfl]
  omega

/-- The factor 169 is the inverse of 2^16 modulo q. -/
theorem mm_toNat_mul_radix (a b : Coef) : (mm a b).toNat * 65536 % 3329 = a.toNat * b.toNat % 3329 := by
  rw [mm_toNat]
  omega

theorem mm_r2_toNat_reduced (a : Coef) : (mm a 1353#12).toNat = a.toNat * 2285 % 3329 := by
  rw [mm_r2_toNat]
  omega

/-- The product of two values in Montgomery form is the Montgomery form of the plain product. -/
theorem mm_montgomeryForms (a b : Coef) :
    mm (mm a 1353#12) (mm b 1353#12) = mm (mm (mm a b) 1353#12) 1353#12 := by
  rw [← mm_assoc, mm_right_comm a]

/-- One operand in Montgomery form makes the plain product. -/
theorem mm_montgomeryForm_toNat (a b : Coef) : (mm a (mm b 1353#12)).toNat = a.toNat * b.toNat % 3329 := by
  rw [← mm_assoc, mm_mm_r2_toNat]

/-- Settles O32: the laws of R100 in its order. -/
theorem montgomeryProductLaws : Obligations.MontgomeryProductLaws := fun a b ha _ =>
  ⟨mm_toNat a b, mm_toNat_mul_radix a b, mm_canonical a b, mm_comm a b, mm_zero a, mm_montgomeryOne ha, mm_one_toNat a,
    mm_r2_toNat_reduced a, mm_mm_r2_toNat a b, mm_montgomeryForms a b, mm_montgomeryForm_toNat a b⟩

end Sys2Proof.Machine
end

section
/-! PROOFS. The root table (`41_butterfly.md` rule R120): the bits of `brv7`, the exponents of a root and of the root that
undoes it, and the order of 17. -/

namespace Sys2Proof.Machine

/-! ### Bit reversal -/

theorem brv7_lt (i : Nat) : brv7 i < 128 := by
  unfold brv7
  omega

/-- Bit `k` of the reversal is bit `6 - k` (R9). -/
theorem testBit_brv7 : ∀ i < 128, ∀ k < 7, (brv7 i).testBit k = i.testBit (6 - k) := by decide

/-! ### The index whose root undoes another -/

theorem zbar_bounds : ∀ z < 128, 1 ≤ z → 1 ≤ zbar z ∧ zbar z < 128 := by decide

/-- `zbar` keeps the top bit of an index, bit `k`, and flips the bits below it: in the sum of the two reversals the top bits
give `2^(7-k)` and the flipped bits the rest of 128. -/
theorem brv7_add_brv7_zbar : ∀ z < 128, 1 ≤ z → brv7 z + brv7 (zbar z) = 128 := by decide

/-- Half of the order 256 of 17 makes -1. -/
theorem root_pow_half_turn : 17 ^ 128 % 3329 = 3328 := by decide

theorem root_mul_root_zbar {z : Nat} (h1 : 1 ≤ z) (h2 : z < 128) :
    17 ^ brv7 z * 17 ^ brv7 (zbar z) % 3329 = 3328 := by
  rw [← pow_add, brv7_add_brv7_zbar z h2 h1, root_pow_half_turn]

/-- Settles O33: the table's entries are known; the root that undoes another makes with it a half turn. -/
theorem rootTableHoldsTheBitReversedPowers : Obligations.RootTableHoldsTheBitReversedPowers :=
  ⟨fun i hi => ⟨brv7_lt i, testBit_brv7 i hi⟩, fun _ => zeta_toNat, fun _ => mm_zeta_toNat, root_pow_half_turn,
    by decide, fun _ h1 h2 =>
      have ⟨hl, hu⟩ := zbar_bounds _ h2 h1
      ⟨hl, hu, root_mul_root_zbar h1 h2⟩⟩

end Sys2Proof.Machine
end

section
/-! PROOFS. The butterflies (`41_butterfly.md` rules R122 to R124): the word, the two registers written, the values written
there, and how the inverse butterfly undoes the forward one. -/

namespace Sys2Proof.Machine

/-! ### The words -/

/-- A word with a butterfly's opcode is a command when its must-be-zero bits are 0 and its legs differ (R75). -/
theorem butterfly_legal_iff {n : String} {op : BitVec 8} (hr : (n, op ++ 0#24, 0xFF0080FF#32) ∈ opcodeTable)
    (hn : n = "BFCT" ∨ n = "BFGS") (w : Word) (ho : opcodeOf w = op) :
    (∃ i, decode w = .ok i) ↔ w &&& 0x000080FF#32 = 0#32 ∧ w.extractLsb' 20 4 ≠ w.extractLsb' 16 4 := by
  have hop : opcodeOf (op ++ 0#24 : Word) = op := BitVec.extractLsb'_append_eq_left
  obtain ⟨i, -, hi⟩ := decode_eq_ok_iff_of_row hr (ho.trans hop.symm)
  have hm : w &&& 0xFF0080FF#32 = op ++ 0#24 ↔ w &&& 0x000080FF#32 = 0#32 := ho ▸ and_mask_eq_iff w 0x0080FF#24
  have hl : LegsDiffer n w ↔ w.extractLsb' 20 4 ≠ w.extractLsb' 16 4 := imp_iff_right hn
  simp only [hi, hm, hl, exists_eq_left]

theorem word_sb_eq_or (op : BitVec 8) (x y : BitVec 4) (z : BitVec 7) :
    (op ++ x ++ y ++ 0#1 ++ z ++ 0#8 : Word) =
      (op ++ 0#24) ||| field x.toNat 20 ||| field y.toNat 16 ||| field z.toNat 8 := by
  simp only [field_toNat]
  refine word_ext fun i hi => ?_
  simp only [BitVec.getLsbD_append, BitVec.getLsbD_or, BitVec.getLsbD_shiftLeft, BitVec.getLsbD_setWidth]
  interval_cases i <;> simp

/-! ### What a write to both legs leaves in the low leg -/

theorem State.setC_setC_read_fst (s : State) {i j : CReg} (h : i ≠ j) (u v : Coef) :
    ((s.setC i u).setC j v).c[i] = u := by
  rw [State.setC_read_other _ _ h, State.setC_read_same]

/-! ### The pairs as numbers -/

theorem bfctPair_fst_toNat {z : Nat} (hz : z < 128) (a b : Coef) :
    (bfctPair z a b).1.toNat = (a.toNat + 17 ^ brv7 z * b.toNat) % 3329 := by
  rw [bfctPair, maddq_toNat, mm_zeta_toNat hz, Nat.add_mod_mod]

theorem bfctPair_snd_toInt {z : Nat} (hz : z < 128) (a b : Coef) :
    ((bfctPair z a b).2.toNat : Int) = ((a.toNat : Int) - 17 ^ brv7 z * b.toNat) % 3329 := by
  rw [bfctPair, msubq_toInt, mm_zeta_toNat hz]
  push_cast
  rw [Int.sub_emod_emod]

theorem bfgsPair_fst_toNat (z : Nat) (a b : Coef) : (bfgsPair z a b).1.toNat = (a.toNat + b.toNat) % 3329 :=
  maddq_toNat a b

theorem bfgsPair_snd_toInt {z : Nat} (hz : z < 128) (a b : Coef) :
    ((bfgsPair z a b).2.toNat : Int) = 17 ^ brv7 z * ((b.toNat : Int) - a.toNat) % 3329 := by
  rw [bfgsPair, mm_zeta_toNat hz]
  push_cast
  rw [msubq_toInt, Int.mul_emod, Int.emod_emod, ← Int.mul_emod]

/-- Settles O15: both legs are written, with the sum and the difference of the values before. -/
theorem bfctStoresTheForwardButterfly : Obligations.BfctStoresTheForwardButterfly := by
  refine ⟨butterfly_legal_iff (n := "BFCT") (by decide) (by decide), fun ca cb z =>
    ⟨word_sb_eq_or 0x13#8 (nibble ca) (nibble cb) (BitVec.ofFin z), fun s hne =>
      ⟨_, rfl, s.setC_setC_onlyScalars ca cb _ _, ?low, ?high⟩⟩⟩
  case low => rw [s.setC_setC_read_fst hne, bfctPair_fst_toNat z.isLt]
  case high => rw [State.setC_read_same, bfctPair_snd_toInt z.isLt]

/-- Settles O16: both legs are written, with the sum and the root times high minus low of the values before. -/
theorem bfgsStoresTheInverseButterfly : Obligations.BfgsStoresTheInverseButterfly := by
  refine ⟨butterfly_legal_iff (n := "BFGS") (by decide) (by decide), fun ca cb z =>
    ⟨word_sb_eq_or 0x14#8 (nibble ca) (nibble cb) (BitVec.ofFin z), fun s hne =>
      ⟨_, rfl, s.setC_setC_onlyScalars ca cb _ _, ?low, ?high⟩⟩⟩
  case low => rw [s.setC_setC_read_fst hne, bfgsPair_fst_toNat]
  case high => rw [State.setC_read_same, bfgsPair_snd_toInt z.isLt]

/-! ### The inverse butterfly after the forward one -/

theorem residue_root_mul_root_zbar {z : Nat} (h1 : 1 ≤ z) (h2 : z < 128) :
    (17 ^ brv7 z * 17 ^ brv7 (zbar z) : ZMod 3329) = -1 := by
  have h := congrArg (Nat.cast (R := ZMod 3329)) (root_mul_root_zbar h1 h2)
  rw [natCast_mod_q] at h
  push_cast at h
  rw [h]
  decide

theorem maddq_self_toNat (a : Coef) : (maddq a a).toNat = 2 * a.toNat % 3329 := by
  rw [maddq_toNat, ← Nat.two_mul]

/-- R124's reason: `lo + hi = 2a`, and `hi - lo = -2*r*b` for the root `r`, which the root of `zbar(z)` turns to `2b`. -/
theorem bfgsPair_zbar_bfctPair {z : Nat} (h1 : 1 ≤ z) (h2 : z < 128) (a b : Coef) :
    bfgsPair (zbar z) (bfctPair z a b).1 (bfctPair z a b).2 = (maddq a a, maddq b b) := by
  obtain ⟨-, hz'⟩ := zbar_bounds z h2 h1
  have hroots := residue_root_mul_root_zbar h1 h2
  refine Prod.ext ?low ?high
  case low =>
    refine residue_injective (maddq_canonical _ _) (maddq_canonical _ _) ?_
    simp only [bfgsPair, bfctPair, residue_maddq, residue_msubq]
    ring
  case high =>
    refine residue_injective (mm_canonical _ _) (maddq_canonical _ _) ?_
    simp only [bfgsPair, bfctPair, residue_mm_zeta h2, residue_mm_zeta hz', residue_maddq, residue_msubq]
    linear_combination (-2 * residue b) * hroots

/-- Settles O34: BFGS reads in the two legs the pair that BFCT put there. -/
theorem inverseButterflyUndoesForwardUpToTwo : Obligations.InverseButterflyUndoesForwardUpToTwo := by
  intro ca cb z z' s hne h1 hz' _ _
  refine ⟨_, _, rfl, rfl, ?_⟩
  rw [State.setC_setC_read_fst _ hne, State.setC_read_same, State.setC_setC_read_fst _ hne, State.setC_read_same, hz',
    bfgsPair_zbar_bfctPair h1 z.isLt, maddq_self_toNat, maddq_self_toNat]
  exact ⟨rfl, rfl⟩

end Sys2Proof.Machine
end

section
/-! PROOFS. The array commands that only move a slot (`42_polynomial.md` rules R136 and R137): the word, the slot
and tag written, and issue without a tag test. -/

namespace Sys2Proof.Machine

/-! ### The operands in their places, for the formats of one and two slots -/

theorem word_p2_eq_or (op : BitVec 8) (x y : BitVec 4) :
    (op ++ x ++ y ++ 0#16 : Word) = (op ++ 0#24) ||| field x.toNat 20 ||| field y.toNat 16 := by
  have h : (op ++ x ++ y ++ 0#16 : Word) = op ++ x ++ y ++ 0#4 ++ 0#12 :=
    (BitVec.append_assoc (x₁ := op ++ x ++ y) (x₂ := 0#4) (x₃ := 0#12)).symm
  have hz : field (0#4).toNat 12 = 0#32 := by decide
  rw [h, word_s3_eq_or, hz, BitVec.or_zero]

theorem word_p1_eq_or (op : BitVec 8) (x : BitVec 4) :
    (op ++ x ++ 0#20 : Word) = (op ++ 0#24) ||| field x.toNat 20 := by
  have h : (op ++ x ++ 0#20 : Word) = op ++ x ++ 0#4 ++ 0#16 :=
    (BitVec.append_assoc (x₁ := op ++ x) (x₂ := 0#4) (x₃ := 0#16)).symm
  have hz : field (0#4).toNat 16 = 0#32 := by decide
  rw [h, word_p2_eq_or, hz, BitVec.or_zero]

/-- Settles O22: the slot is written with `pa`'s coefficients and tag; written back to itself it changes nothing. -/
theorem pcopyCopiesTheSlot : Obligations.PcopyCopiesTheSlot := by
  refine ⟨legalWhenZero_of_row (n := "PCOPY") (z := 0xFFFF#24) (by decide) (by decide),
    fun pd pa => ⟨?word, ?effect, ?issue⟩⟩
  case word => exact word_p2_eq_or 0x25#8 (nibble pd) (nibble pa)
  case effect =>
    refine fun s => ⟨_, rfl, s.writeSlot_onlySlot pd _ _, s.writeSlot_slot_same pd _ _, s.writeSlot_tagOf_same pd _ _,
      ?_⟩
    rintro rfl
    exact s.writeSlot_self pd
  case issue => exact fun s hp => State.writeCmd_accepted hp (encodeThenDecodeGivesTheCommand (.pcopy pd pa) rfl) rfl

theorem ringZero_get (i : CoefIdx) : ringZero[i] = 0#12 := Vector.getElem_replicate _

/-- Settles O23: the slot is written with the zero element and the tag of the normal domain. -/
theorem pzeroClearsTheSlot : Obligations.PzeroClearsTheSlot := by
  refine ⟨legalWhenZero_of_row (n := "PZERO") (z := 0xFFFFF#24) (by decide) (by decide),
    fun pd => ⟨?word, ?effect, ?issue⟩⟩
  case word => exact word_p1_eq_or 0x26#8 (nibble pd)
  case effect =>
    refine fun s => ⟨_, rfl, s.writeSlot_onlySlot pd _ _, s.writeSlot_tagOf_same pd _ _, fun i => ?_⟩
    rw [State.coefAt_eq, State.writeSlot_slot_same, ringZero_get]
  case issue => exact fun s hp => State.writeCmd_accepted hp (encodeThenDecodeGivesTheCommand (.pzero pd) rfl) rfl

end Sys2Proof.Machine
end

section
/-! PROOFS. The layers of the transforms pair by pair (`42_polynomial.md` rule R139), by block number and place. -/

namespace Sys2Proof.Machine

/-- Block `k`, place `j` of a forward layer. -/
theorem pairAt_nttLayer {len : Nat} (h : len ∈ [128, 64, 32, 16, 8, 4, 2]) {g : List Coef} (hg : g.length = 256)
    {k j : Nat} (hk : k < 128 / len) (hj : j < len) :
    pairAt len (2 * len * k + j) (nttLayer len g) =
      bfctPair (128 / len + k) (pairAt len (2 * len * k + j) g).1 (pairAt len (2 * len * k + j) g).2 := by
  rw [Nat.mul_comm (2 * len)]
  exact nttBlocks_get len _ _ g (by rw [hg, layer_length_cases h]) k hk j hj

/-- Block `k`, place `j` of an inverse layer. -/
theorem pairAt_inttLayer {len : Nat} (h : len ∈ [128, 64, 32, 16, 8, 4, 2]) {g : List Coef} (hg : g.length = 256)
    {k j : Nat} (hk : k < 128 / len) (hj : j < len) :
    pairAt len (2 * len * k + j) (inttLayer len g) =
      bfgsPair (256 / len - 1 - k) (pairAt len (2 * len * k + j) g).1 (pairAt len (2 * len * k + j) g).2 := by
  rw [Nat.mul_comm (2 * len)]
  exact inttBlocks_get len _ _ g (by rw [hg, layer_length_cases h]) k hk j hj

/-- The 128 butterflies of a layer make whole blocks. -/
theorem blocks_mul_length {len : Nat} (h : len ∈ [128, 64, 32, 16, 8, 4, 2]) : 128 / len * len = 128 := by
  have := layer_length_cases h
  rw [Nat.mul_left_comm] at this
  omega

/-- Settles O35: butterfly `b` is the one at place `b mod len` of block `b div len`. -/
theorem layersAreTheButterfliesOfTheAddressSequence : Obligations.LayersAreTheButterfliesOfTheAddressSequence := by
  intro len hlen b hb g
  have hlen' : len ∈ [128, 64, 32, 16, 8, 4, 2] := by rwa [← List.mem_reverse] at hlen
  have hj : b % len < len := Nat.mod_lt _ (layer_pos hlen')
  have hk : b / len < 128 / len :=
    Nat.div_lt_of_lt_mul (by rwa [Nat.mul_comm, blocks_mul_length hlen'])
  rw [Nat.mul_comm (b / len)]
  exact ⟨pairAt_nttLayer hlen' g.length_toList hk hj, pairAt_inttLayer hlen' g.length_toList hk hj⟩

end Sys2Proof.Machine
end

section
/-! PROOFS. The inverse transform undoes the forward one (`42_polynomial.md` rule R138 (1)): every inverse layer undoes
its forward layer up to a factor 2 and commutes with that factor, and the scaling takes away the seven factors. -/

namespace Sys2Proof.Machine

/-- Twice a coefficient, what R124 makes of each leg. -/
def double (a : Coef) : Coef := maddq a a

theorem residue_double (a : Coef) : residue (double a) = 2 * residue a := by
  rw [double, residue_maddq]
  ring

/-! ### A layer and its inverse -/

/-- Block `k` of an inverse layer has the root that undoes block `k` of the forward layer (R120, R139). -/
theorem zbar_layer_root : ∀ len ∈ [128, 64, 32, 16, 8, 4, 2], ∀ k < 128 / len,
    1 ≤ 128 / len + k ∧ 128 / len + k < 128 ∧ zbar (128 / len + k) = 256 / len - 1 - k := by decide

theorem pairAt_map_double {len j : Nat} {g : List Coef} (hj : j + len < g.length) :
    pairAt len j (g.map double) = (double (pairAt len j g).1, double (pairAt len j g).2) := by
  rw [pairAt, getD_map hj, getD_map (by omega)]
  rfl

theorem inttLayer_nttLayer {len : Nat} (h : len ∈ [128, 64, 32, 16, 8, 4, 2]) {g : List Coef} (hg : g.length = 256) :
    inttLayer len (nttLayer len g) = g.map double := by
  have hn := nttLayer_length h hg
  have hb : 2 * len * (128 / len) = 256 := by rw [Nat.mul_comm, layer_length_cases h]
  refine eq_of_pairs (layer_pos h) ((inttLayer_length h hn).trans hb.symm) ?_ fun k hk j hj => ?_
  · rw [List.length_map, hg, hb]
  · obtain ⟨h1, h2, hz⟩ := zbar_layer_root len h k hk
    have hend : 2 * len * k + j + len < g.length := by
      have := Nat.mul_le_mul_left (2 * len) (Nat.succ_le_of_lt hk)
      rw [Nat.mul_succ] at this
      omega
    rw [pairAt_inttLayer h hn hk hj, pairAt_nttLayer h hg hk hj, ← hz, bfgsPair_zbar_bfctPair h1 h2,
      pairAt_map_double hend]
    rfl

/-! ### The factor 2 goes through an inverse layer -/

theorem maddq_double (a b : Coef) : maddq (double a) (double b) = double (maddq a b) := by
  refine residue_injective (maddq_canonical _ _) (maddq_canonical _ _) ?_
  simp only [residue_maddq, residue_double]
  ring

theorem mm_msubq_double (c a b : Coef) : mm c (msubq (double a) (double b)) = double (mm c (msubq a b)) := by
  refine residue_injective (mm_canonical _ _) (maddq_canonical _ _) ?_
  simp only [residue_mm, residue_msubq, residue_double]
  ring

theorem inttBlocks_map_double (len : Nat) : ∀ blocks z f,
    inttBlocks len blocks z (f.map double) = (inttBlocks len blocks z f).map double
  | 0, _, _ => rfl
  | blocks + 1, z, f => by
    simp only [inttBlocks, List.map_append, List.map_zipWith, ← List.map_take, ← List.map_drop, List.zipWith_map,
      maddq_double, mm_msubq_double, inttBlocks_map_double len blocks]

theorem inttLayer_map_double (len : Nat) (f : List Coef) :
    inttLayer len (f.map double) = (inttLayer len f).map double :=
  inttBlocks_map_double len _ _ f

theorem inttLayer_map_double_iterate (len n : Nat) (f : List Coef) :
    inttLayer len (f.map double^[n]) = (inttLayer len f).map double^[n] := by
  induction n generalizing f with
  | zero => simp only [Function.iterate_zero, List.map_id]
  | succ n ih => rw [Function.iterate_succ, ← List.map_map, ih, inttLayer_map_double, List.map_map]

/-! ### The whole transforms -/

/-- Seven doublings and the scaling leave a canonical coefficient as it was (R134). -/
theorem scale_double_seven {a : Coef} (ha : Canonical a) : mm (double^[7] a) 512#12 = a := by
  refine residue_injective (mm_canonical _ _) ha ?_
  have h : (128 * 512 * 169 : ZMod 3329) = 1 := by decide
  have hs : residue 512#12 = 512 := rfl
  simp only [residue_mm, Function.iterate_succ_apply', Function.iterate_zero_apply, residue_double, hs]
  linear_combination residue a * h

theorem nttLayers_length (ls : List Nat) (hls : ∀ len ∈ ls, len ∈ [128, 64, 32, 16, 8, 4, 2]) (f : List Coef)
    (hf : f.length = 256) : (ls.foldl (fun g len => nttLayer len g) f).length = 256 := by
  induction ls generalizing f with
  | nil => exact hf
  | cons len ls ih =>
    rw [List.forall_mem_cons] at hls
    exact ih hls.2 _ (nttLayer_length hls.1 hf)

/-- The inverse layers in the reverse order undo any forward layers, up to one factor 2 for each. -/
theorem inttLayers_nttLayers (ls : List Nat) (hls : ∀ len ∈ ls, len ∈ [128, 64, 32, 16, 8, 4, 2]) (f : List Coef)
    (hf : f.length = 256) :
    ls.reverse.foldl (fun f len => inttLayer len f) (ls.foldl (fun g len => nttLayer len g) f) =
      f.map double^[ls.length] := by
  induction ls generalizing f with
  | nil => exact (List.map_id f).symm
  | cons len ls ih =>
    rw [List.forall_mem_cons] at hls
    rw [List.foldl_cons, List.reverse_cons, List.foldl_append, ih hls.2 _ (nttLayer_length hls.1 hf), List.foldl_cons,
      List.foldl_nil, inttLayer_map_double_iterate, inttLayer_nttLayer hls.1 hf, List.map_map, List.length_cons,
      Function.iterate_succ]

theorem intt_ntt {f : RingElt} (hf : CanonicalElt f) : intt (ntt f) = f := by
  have hl := nttLayers_length [128, 64, 32, 16, 8, 4, 2] (fun _ h => h) f.toList f.length_toList
  have hd := inttLayers_nttLayers [128, 64, 32, 16, 8, 4, 2] (fun _ h => h) f.toList f.length_toList
  have hs : ∀ v ∈ f.toList, ((fun v => mm v 512#12) ∘ double^[7]) v = v := fun v hv =>
    scale_double_seven ((canonicalElt_iff f).1 hf v hv)
  calc intt (ntt f) = ofCoefs ((f.toList.map double^[7]).map fun v => mm v 512#12) := by
        rw [intt, ntt, ofCoefs_toList hl]
        exact congrArg (fun l => ofCoefs (List.map (fun v => mm v 512#12) l)) hd
    _ = ofCoefs f.toList := by rw [List.map_map, List.map_congr_left hs, List.map_id']
    _ = f := ofCoefs_self f

/-! ### The other order: there are finitely many canonical ring elements -/

/-- The forward transform on the canonical ring elements. -/
def nttCanonical (f : {f // CanonicalElt f}) : {f // CanonicalElt f} := ⟨ntt f, ntt_canonical f⟩

/-- The inverse transform on the canonical ring elements. -/
def inttCanonical (f : {f // CanonicalElt f}) : {f // CanonicalElt f} := ⟨intt f, intt_canonical f⟩

theorem nttCanonical_val (f : {f // CanonicalElt f}) : (nttCanonical f).1 = ntt f.1 := rfl

theorem inttCanonical_val (f : {f // CanonicalElt f}) : (inttCanonical f).1 = intt f.1 := rfl

theorem ringElt_finite : Finite RingElt :=
  Finite.of_injective (fun (f : RingElt) (i : Fin 256) => f[i]) fun _ _ h =>
    Vector.ext fun i hi => congrFun h ⟨i, hi⟩

theorem ntt_intt {f : RingElt} (hf : CanonicalElt f) : ntt (intt f) = f := by
  have := ringElt_finite
  have hleft : Function.LeftInverse inttCanonical nttCanonical := fun g => by
    rw [Subtype.ext_iff, inttCanonical_val, nttCanonical_val, intt_ntt g.2]
  have hsurj : Function.Surjective nttCanonical := Finite.surjective_of_injective hleft.injective
  have hright := hleft.rightInverse_of_surjective hsurj ⟨f, hf⟩
  rwa [Subtype.ext_iff, nttCanonical_val, inttCanonical_val] at hright

/-- Settles O37: one order layer by layer, the other because the canonical elements are finitely many. -/
theorem transformsAreMutualInverses : Obligations.TransformsAreMutualInverses := fun _ hf =>
  ⟨intt_ntt hf, ntt_intt hf⟩

end Sys2Proof.Machine
end

section
/-! PROOFS. What the forward transform computes (`42_polynomial.md` rules R133 and R135): pair `i` of the result is the
ring element, as a polynomial, at the root `x` of `x^2 - GAMMA(i)`. A canonical ring element is known by its pairs. -/

namespace Sys2Proof.Machine

open QuadraticAlgebra

/-! ### The value of a ring element at the root of a quadratic -/

/-- The residues modulo `x^2 - GAMMA(i)`; `omega` is the class of `x` (R135). -/
abbrev PairRing (i : Nat) : Type := QuadraticAlgebra (ZMod 3329) (gammaResidue i) 0

/-- `f mod (x^2 - GAMMA(i))`. -/
def evalPair (i : Nat) (f : RingElt) : PairRing i := ∑ k : CoefIdx, algebraMap _ _ (residue f[k]) * omega ^ k.val

/-- Coefficients `2i` and `2i+1`, as a residue modulo `x^2 - GAMMA(i)`. -/
def pairOf (i : Fin 128) (g : RingElt) : PairRing i :=
  ⟨residue (g[2 * i.val]'(by omega)), residue (g[2 * i.val + 1]'(by omega))⟩

theorem omega_pow_even (i k : Nat) : (omega : PairRing i) ^ (2 * k) = algebraMap _ _ (gammaResidue i ^ k) := by
  rw [pow_mul, pow_two, omega_mul_omega_eq_algebraMap, map_pow]
  simp

theorem sum_range_two_mul {M : Type} [AddCommMonoid M] (F : Nat → M) (n : Nat) :
    ∑ k ∈ Finset.range (2 * n), F k = ∑ k ∈ Finset.range n, (F (2 * k) + F (2 * k + 1)) := by
  induction n with
  | zero => rfl
  | succ n ih => rw [Nat.mul_succ, Finset.sum_range_succ, Finset.sum_range_succ, ih, Finset.sum_range_succ, add_assoc]

theorem sum_by_pairs {M : Type} [AddCommMonoid M] (F : Nat → M) :
    ∑ k : CoefIdx, F k = ∑ k ∈ Finset.range 128, (F (2 * k) + F (2 * k + 1)) :=
  (Fin.sum_univ_eq_sum_range F 256).trans (sum_range_two_mul F 128)

theorem getD_toList (f : RingElt) {k : Nat} (hk : k < 256) : f.toList.getD k 0#12 = f[k] := by
  simp [List.getD_eq_getElem?_getD, hk]

/-- The even coefficients make the constant term, the odd ones the coefficient of `x`. -/
theorem evalPair_eq_blockValue {i : Nat} (hi : i < 128) (f : RingElt) :
    evalPair i f = ⟨blockValue f.toList 128 i 0, blockValue f.toList 128 i 1⟩ := by
  have hb : i / 128 = 0 := Nat.div_eq_of_lt hi
  have hterm : ∀ k, (algebraMap _ _ (residue (f.toList.getD (2 * k) 0#12)) * omega ^ (2 * k) +
      algebraMap _ _ (residue (f.toList.getD (2 * k + 1) 0#12)) * omega ^ (2 * k + 1) : PairRing i) =
      algebraMap _ _ (residue (f.toList.getD (2 * k) 0#12) * gammaResidue i ^ k) +
        (residue (f.toList.getD (2 * k + 1) 0#12) * gammaResidue i ^ k) • omega := fun k => by
    rw [pow_succ, omega_pow_even, Algebra.smul_def, map_mul, map_mul]
    ring
  have hsum := sum_by_pairs fun k => (algebraMap _ _ (residue (f.toList.getD k 0#12)) * omega ^ k : PairRing i)
  calc evalPair i f
      = ∑ k : CoefIdx, algebraMap _ _ (residue (f.toList.getD k 0#12)) * omega ^ k.val :=
        Finset.sum_congr rfl fun k _ => by rw [getD_toList f k.isLt, Fin.getElem_fin]
    _ = algebraMap _ _ (blockValue f.toList 128 i 0) + blockValue f.toList 128 i 1 • omega := by
        simp only [hsum, hterm, Finset.sum_add_distrib, ← map_sum, ← Finset.sum_smul, blockValue, hb, Nat.zero_mul,
          Nat.zero_add, Nat.add_zero]
    _ = ⟨blockValue f.toList 128 i 0, blockValue f.toList 128 i 1⟩ := (mk_eq_add_smul_omega _ _).symm

/-! ### The forward transform takes the values at the 128 roots -/

/-- The length of the blocks' halves goes down by 2 from layer to layer. -/
theorem halved_length : ∀ n < 7, 128 / 2 ^ n = 2 * (128 / 2 ^ (n + 1)) ∧
    128 / 2 ^ (n + 1) ∈ [64, 32, 16, 8, 4, 2, 1] ∧ 128 / 2 ^ n ∈ [128, 64, 32, 16, 8, 4, 2] := by decide

/-- The first `n` forward layers keep the value of every final pair. -/
theorem blockValue_nttLayers {i o : Nat} (hi : i < 128) (ho : o < 2) {f : List Coef} (hf : f.length = 256) :
    ∀ n ≤ 7, let g := ((List.range n).map (128 / 2 ^ ·)).foldl (fun g len => nttLayer len g) f
      g.length = 256 ∧ blockValue g (128 / 2 ^ n) i o = blockValue f 128 i o
  | 0, _ => ⟨hf, rfl⟩
  | n + 1, hn => by
    obtain ⟨hl, hv⟩ := blockValue_nttLayers hi ho hf n (by omega)
    obtain ⟨hhalf, hmem, hlen⟩ := halved_length n hn
    rw [List.range_succ, List.map_append, List.foldl_append]
    refine ⟨nttLayer_length hlen hl, ?_⟩
    rw [← hv]
    simp only [List.map_cons, List.map_nil, List.foldl_cons, List.foldl_nil]
    rw [hhalf]
    exact blockValue_nttLayer hmem hi ho hl

/-- A block of one pair has the pair's coefficients as its values. -/
theorem blockValue_one (g : List Coef) (i o : Nat) : blockValue g 1 i o = residue (g.getD (2 * i + o) 0#12) := by
  rw [blockValue, Finset.sum_range_one, pow_zero, mul_one, Nat.div_one, Nat.mul_one, Nat.mul_comm, Nat.mul_zero,
    Nat.zero_add]

theorem residue_ntt {i o : Nat} (hi : i < 128) (ho : o < 2) (f : RingElt) :
    residue ((ntt f)[2 * i + o]'(by omega)) = blockValue f.toList 128 i o := by
  obtain ⟨hl, hv⟩ := blockValue_nttLayers hi ho f.length_toList 7 (Nat.le_refl 7)
  rw [← getD_toList (ntt f) (by omega), ← hv, ← ofCoefs_toList hl]
  exact (blockValue_one (ntt f).toList i o).symm

/-- R133: the transform is the reduction modulo each of the 128 quadratics. -/
theorem pairOf_ntt (i : Fin 128) (f : RingElt) : pairOf i (ntt f) = evalPair i f := by
  rw [evalPair_eq_blockValue i.isLt, ← residue_ntt i.isLt (by decide), ← residue_ntt i.isLt (by decide)]
  rfl

/-! ### The pairs of sums, differences and products -/

theorem pairOf_ringAdd (i : Fin 128) (f g : RingElt) : pairOf i (ringAdd f g) = pairOf i f + pairOf i g := by
  ext <;> simp [pairOf, ringAdd_get, residue_maddq]

theorem pairOf_ringSub (i : Fin 128) (f g : RingElt) : pairOf i (ringSub f g) = pairOf i f - pairOf i g := by
  ext <;> simp [pairOf, ringSub_get, residue_msubq]

theorem evalPair_ringAdd (i : Nat) (f g : RingElt) : evalPair i (ringAdd f g) = evalPair i f + evalPair i g := by
  simp only [evalPair, ← Finset.sum_add_distrib]
  refine Finset.sum_congr rfl fun k _ => ?_
  rw [Fin.getElem_fin, ringAdd_get, residue_maddq, map_add, add_mul]
  rfl

theorem evalPair_ringSub (i : Nat) (f g : RingElt) : evalPair i (ringSub f g) = evalPair i f - evalPair i g := by
  simp only [evalPair, ← Finset.sum_sub_distrib]
  refine Finset.sum_congr rfl fun k _ => ?_
  rw [Fin.getElem_fin, ringSub_get, residue_msubq, map_sub, sub_mul]
  rfl

theorem natCast_gamma (i : Nat) : (gamma i : ZMod 3329) = gammaResidue i := by
  rw [gamma, natCast_mod_q, gammaResidue]
  push_cast
  rfl

theorem residue_pairProduct_fst (i : Nat) (a0 a1 b0 b1 : Coef) : residue (pairProduct i a0 a1 b0 b1).1 =
    residue a0 * residue b0 + residue a1 * residue b1 * gammaResidue i := by
  rw [residue, pairProduct, toNat_ofNat_mod_q, natCast_mod_q]
  push_cast [natCast_gamma]
  rfl

theorem residue_pairProduct_snd (i : Nat) (a0 a1 b0 b1 : Coef) : residue (pairProduct i a0 a1 b0 b1).2 =
    residue a0 * residue b1 + residue a1 * residue b0 := by
  rw [residue, pairProduct, toNat_ofNat_mod_q, natCast_mod_q]
  push_cast
  rfl

/-- BASEMUL multiplies the pairs modulo their quadratics (R135). -/
theorem pairOf_baseMul (i : Fin 128) (f g : RingElt) : pairOf i (baseMul f g) = pairOf i f * pairOf i g := by
  have h := baseMul_get f g i i.isLt
  have hfst := (congrArg (fun p => residue p.1) h).trans (residue_pairProduct_fst _ _ _ _ _)
  have hsnd := (congrArg (fun p => residue p.2) h).trans (residue_pairProduct_snd _ _ _ _ _)
  refine QuadraticAlgebra.ext (hfst.trans ?_) (hsnd.trans ?_)
  · simp only [pairOf, re_mul]
    ring
  · simp only [pairOf, im_mul]
    ring

/-- A canonical ring element is known by its pairs. -/
theorem eq_of_pairOf {f g : RingElt} (hf : CanonicalElt f) (hg : CanonicalElt g)
    (h : ∀ i, pairOf i f = pairOf i g) : f = g := by
  refine Vector.ext fun k hk => residue_injective (hf ⟨k, hk⟩) (hg ⟨k, hk⟩) ?_
  have hk' := Nat.div_add_mod k 2
  have hpair := h ⟨k / 2, by omega⟩
  rcases Nat.mod_two_eq_zero_or_one k with h0 | h0
  · simpa [pairOf, show 2 * (k / 2) = k by omega] using congrArg re hpair
  · simpa [pairOf, show 2 * (k / 2) + 1 = k by omega] using congrArg im hpair

end Sys2Proof.Machine
end

section
/-! PROOFS. The transforms commute with the ring sum and the ring difference (`42_polynomial.md` rule R138 (3)): the
values at the roots do, and what holds of the forward transform holds of its inverse. -/

namespace Sys2Proof.Machine

theorem ntt_ringAdd (f g : RingElt) : ntt (ringAdd f g) = ringAdd (ntt f) (ntt g) :=
  eq_of_pairOf (ntt_canonical _) (ringAdd_canonical _ _) fun i => by
    rw [pairOf_ringAdd, pairOf_ntt, pairOf_ntt, pairOf_ntt, evalPair_ringAdd]

theorem ntt_ringSub (f g : RingElt) : ntt (ringSub f g) = ringSub (ntt f) (ntt g) :=
  eq_of_pairOf (ntt_canonical _) (ringSub_canonical _ _) fun i => by
    rw [pairOf_ringSub, pairOf_ntt, pairOf_ntt, pairOf_ntt, evalPair_ringSub]

/-- An operation that the forward transform commutes with, the inverse transform commutes with. -/
theorem intt_commutes {op : RingElt → RingElt → RingElt} (hop : ∀ f g, CanonicalElt (op f g))
    (hntt : ∀ f g, ntt (op f g) = op (ntt f) (ntt g)) {f g : RingElt} (hf : CanonicalElt f) (hg : CanonicalElt g) :
    intt (op f g) = op (intt f) (intt g) :=
  calc intt (op f g) = intt (op (ntt (intt f)) (ntt (intt g))) := by rw [ntt_intt hf, ntt_intt hg]
    _ = intt (ntt (op (intt f) (intt g))) := by rw [hntt]
    _ = op (intt f) (intt g) := intt_ntt (hop _ _)

/-- Settles O39: the forward transform by the values at the roots, the inverse one through it. -/
theorem transformsAreLinear : Obligations.TransformsAreLinear := fun f g hf hg =>
  ⟨ntt_ringAdd f g, ntt_ringSub f g, intt_commutes ringAdd_canonical ntt_ringAdd hf hg,
    intt_commutes ringSub_canonical ntt_ringSub hf hg⟩

end Sys2Proof.Machine
end

section
/-! PROOFS. The product through the transforms (`42_polynomial.md` rule R138 (2)): at the root of each quadratic
`x^256 = -1`, so there the negacyclic product has the product of the values. -/

namespace Sys2Proof.Machine

/-! ### The negacyclic product in any ring -/

section

variable {R : Type} [CommRing R] {n : Nat}

/-- Coefficient `k` of the product modulo `x^n + 1`: the sum over `i + j = k` less the sum over `i + j = k + n`. -/
def negacyclicCoef (a b : Fin n → R) (k : Fin n) : R :=
  (∑ i : Fin n, ∑ j : Fin n, if i.val + j.val = k.val then a i * b j else 0) -
    ∑ i : Fin n, ∑ j : Fin n, if i.val + j.val = k.val + n then a i * b j else 0

theorem map_negacyclicCoef {S : Type} [CommRing S] (φ : R →+* S) (a b : Fin n → R) (k : Fin n) :
    φ (negacyclicCoef a b k) = negacyclicCoef (φ ∘ a) (φ ∘ b) k := by
  simp only [negacyclicCoef, map_sub, map_sum, apply_ite φ, map_mul, map_zero, Function.comp_apply]

/-- Where `x^n = -1`, a product of two terms goes to one coefficient, with the sign of its wrap. -/
theorem sum_wrapped_term {x : R} (hx : x ^ n = -1) (i j : Fin n) (c : R) :
    ∑ k : Fin n, ((if i.val + j.val = k.val then c else 0) - if i.val + j.val = k.val + n then c else 0) * x ^ k.val =
      c * x ^ (i.val + j.val) := by
  have hi := i.isLt
  have hj := j.isLt
  by_cases hlt : i.val + j.val < n
  · rw [Fintype.sum_eq_single ⟨i.val + j.val, hlt⟩, if_pos rfl, if_neg (by simp only; omega), sub_zero]
    intro k hk
    have hk' : i.val + j.val ≠ k.val := fun e => hk (Fin.ext e.symm)
    rw [if_neg hk', if_neg (by omega), sub_zero, zero_mul]
  · obtain ⟨m, hm⟩ := Nat.exists_eq_add_of_le' (Nat.le_of_not_lt hlt)
    rw [Fintype.sum_eq_single ⟨m, by omega⟩, if_neg (by simp only; omega), if_pos hm, hm, pow_add, hx]
    · ring
    · intro k hk
      have hk' : m ≠ k.val := fun e => hk (Fin.ext e.symm)
      rw [if_neg (by omega), if_neg (by omega), sub_zero, zero_mul]

theorem sum_negacyclicCoef {x : R} (hx : x ^ n = -1) (a b : Fin n → R) :
    ∑ k : Fin n, negacyclicCoef a b k * x ^ k.val = (∑ i : Fin n, a i * x ^ i.val) * ∑ j : Fin n, b j * x ^ j.val := by
  simp only [negacyclicCoef, ← Finset.sum_sub_distrib, Finset.sum_mul]
  rw [Finset.sum_comm]
  refine Finset.sum_congr rfl fun i _ => ?_
  rw [Finset.sum_comm, Finset.mul_sum]
  refine Finset.sum_congr rfl fun j _ => ?_
  rw [sum_wrapped_term hx, pow_add]
  ring

end

/-! ### The negacyclic product of two ring elements -/

/-- The coefficient of R138 (2), as an integer. -/
def ringMulCoef (f g : RingElt) (k : CoefIdx) : Int :=
  negacyclicCoef (fun i : CoefIdx => (f[i].toNat : Int)) (fun j : CoefIdx => (g[j].toNat : Int)) k

/-- The product of two ring elements modulo `x^256 + 1`. -/
def ringMul (f g : RingElt) : RingElt := Vector.ofFn fun k => BitVec.ofInt 12 (ringMulCoef f g k % 3329)

theorem ringMul_toInt (f g : RingElt) (k : CoefIdx) : ((ringMul f g)[k].toNat : Int) = ringMulCoef f g k % 3329 := by
  rw [ringMul, Fin.getElem_fin, Vector.getElem_ofFn, Fin.eta, BitVec.toNat_ofInt]
  omega

theorem ringMul_canonical (f g : RingElt) : CanonicalElt (ringMul f g) := fun k => by
  have := ringMul_toInt f g k
  rw [Canonical]
  omega

theorem residue_ringMul (f g : RingElt) (k : CoefIdx) :
    residue (ringMul f g)[k] = negacyclicCoef (fun i : CoefIdx => residue f[i]) (fun j => residue g[j]) k := by
  have hcast : ∀ a : Coef, residue a = ((a.toNat : Int) : ZMod 3329) := fun a => (Int.cast_natCast _).symm
  rw [hcast, ringMul_toInt, ringMulCoef]
  simp only [hcast]
  exact (ZMod.intCast_mod _ 3329).trans (map_negacyclicCoef (Int.castRingHom (ZMod 3329)) _ _ k)

/-! ### The product through the transforms -/

theorem residue_root_pow_half_turn : (17 ^ 128 : ZMod 3329) = -1 := by
  have h := congrArg (Nat.cast (R := ZMod 3329)) root_pow_half_turn
  rw [natCast_mod_q, Nat.cast_pow] at h
  exact h.trans (by decide)

theorem gammaResidue_pow_half (i : Nat) : gammaResidue i ^ 128 = -1 := by
  rw [gammaResidue, ← pow_mul, Nat.mul_comm, pow_mul, residue_root_pow_half_turn]
  exact Odd.neg_one_pow (odd_two_mul_add_one _)

theorem omega_pow_ring_degree (i : Nat) : (QuadraticAlgebra.omega : PairRing i) ^ 256 = -1 := by
  rw [show 256 = 2 * 128 from rfl, omega_pow_even, gammaResidue_pow_half, map_neg, map_one]

theorem evalPair_ringMul (i : Nat) (f g : RingElt) : evalPair i (ringMul f g) = evalPair i f * evalPair i g := by
  simp only [evalPair, residue_ringMul, map_negacyclicCoef]
  exact sum_negacyclicCoef (omega_pow_ring_degree i) _ _

theorem baseMul_ntt (f g : RingElt) : baseMul (ntt f) (ntt g) = ntt (ringMul f g) :=
  eq_of_pairOf (baseMul_canonical _ _) (ntt_canonical _) fun i => by
    rw [pairOf_baseMul, pairOf_ntt, pairOf_ntt, pairOf_ntt, evalPair_ringMul]

/-- Settles O38: the inverse transform brings back the negacyclic product. -/
theorem transformedProductIsTheNegacyclicProduct : Obligations.TransformedProductIsTheNegacyclicProduct := by
  intro f g _ _ k
  rw [baseMul_ntt, intt_ntt (ringMul_canonical f g), ringMul_toInt]
  rfl

end Sys2Proof.Machine
end

section
/-! PROOFS. The comparison (`43_compare_select.md` rules R150 to R152): CTCLR, and what CTACC leaves in DIFF over one
pair of words and over a list of pairs. -/

namespace Sys2Proof.Machine

/-- Settles O24: the row of the table fixes every bit, and CTCLR is that one write. -/
theorem ctclrClearsDiff : Obligations.CtclrClearsDiff :=
  ⟨legalWhenZero_of_row (n := "CTCLR") (z := 0xFFFFFF#24) (by decide) (by decide), rfl, fun _ => rfl⟩

/-! ### One pair -/

/-- The OR of a difference is zero exactly when both its terms are, and `a ^ b = 0` says that `a = b` (R150). -/
theorem accumulated_eq_zero_iff (d a b : Word) : d ||| (a ^^^ b) = 0#32 ↔ d = 0#32 ∧ a = b := by
  rw [BitVec.or_eq_zero_iff, BitVec.xor_eq_zero_iff]

/-- An OR loses no bit of its first operand (R152). -/
theorem or_and_left_self (d x : Word) : (d ||| x) &&& d = d := by
  ext i hi
  rw [BitVec.getElem_and, BitVec.getElem_or]
  exact (Bool.eq_and_self.2 fun h => Bool.or_inl h).symm

/-- Accumulating the same difference again adds no bit (R152). -/
theorem or_or_self_right (d x : Word) : (d ||| x) ||| x = d ||| x := by
  rw [BitVec.or_assoc, BitVec.or_self]

theorem exec_ctacc (s : State) : exec .ctacc s = .next { s with diff := s.diff ||| (s.cmpa ^^^ s.cmpb) } := rfl

/-- A state whose DIFF holds the difference of its pair already is left as it is by CTACC. -/
theorem exec_ctacc_of_accumulated {s : State} (h : s.diff ||| (s.cmpa ^^^ s.cmpb) = s.diff) :
    exec .ctacc s = .next s := by
  rw [exec_ctacc, h]

/-- Settles O25: DIFF takes the OR with the difference of the pair, and the rest is about that OR. -/
theorem ctaccAccumulatesTheDifference : Obligations.CtaccAccumulatesTheDifference := by
  refine ⟨legalWhenZero_of_row (n := "CTACC") (z := 0xFFFFFF#24) (by decide) (by decide), rfl,
    fun s => ⟨_, exec_ctacc s, rfl, rfl, or_and_left_self _ _, ?nonzero, ?again⟩⟩
  case nonzero => rw [ne_eq, accumulated_eq_zero_iff, not_and_or, or_comm]
  case again => exact exec_ctacc_of_accumulated (or_or_self_right _ _)

/-! ### A list of pairs -/

theorem State.present_eq (s : State) (p : Word × Word) :
    s.present p = .next { s with cmpa := p.1, cmpb := p.2, diff := s.diff ||| (p.1 ^^^ p.2) } := rfl

theorem presentAll_cons {p : Word × Word} {s t : State} (h : s.present p = .next t) (ps : List (Word × Word)) :
    presentAll (p :: ps) s = presentAll ps t := by
  rw [presentAll, h]

/-- Settles O42, by induction on the pairs from every state: the pair in front leaves DIFF at zero exactly when it was
zero and the pair is equal. -/
theorem diffIsZeroExactlyWhenAllPairsAreEqual : Obligations.DiffIsZeroExactlyWhenAllPairsAreEqual := by
  intro ps
  induction ps with
  | nil => exact fun s => ⟨s, rfl, (and_iff_left (List.forall_mem_nil _)).symm⟩
  | cons p ps ih =>
    intro s
    obtain ⟨t, ht, hd⟩ := ih { s with cmpa := p.1, cmpb := p.2, diff := s.diff ||| (p.1 ^^^ p.2) }
    refine ⟨t, (presentAll_cons (s.present_eq p) ps).trans ht, ?_⟩
    rw [hd, accumulated_eq_zero_iff, and_assoc, List.forall_mem_cons]

end Sys2Proof.Machine
end

section
/-! PROOFS. The selection (`43_compare_select.md` rule R153): the mask that CSEL makes of DIFF, and the words it
selects. -/

namespace Sys2Proof.Machine

/-! ### The mask -/

/-- Bit 31 of `d | (0 - d)` is set for every `d` but 0: of `d` and `2^32 - d` one is at least `2^31` (R153). -/
theorem diffNonzero_iff (d : Word) : diffNonzero d = true ↔ d ≠ 0#32 := by
  have hbit (x : Word) : x.getLsbD 31 = true ↔ 2 ^ 31 ≤ x.toNat := by
    rw [← BitVec.msb_eq_getLsbD_last x, BitVec.msb_eq_decide, decide_eq_true_iff]
  rw [diffNonzero, BitVec.getLsbD_or, Bool.or_eq_true, hbit, hbit]
  bv_omega

theorem selectMask_zero : selectMask 0#32 = 0#32 := by decide

theorem selectMask_of_ne_zero {d : Word} (h : d ≠ 0#32) : selectMask d = BitVec.allOnes 32 := by
  rw [selectMask, (diffNonzero_iff d).2 h]
  decide

/-- The mask as R153 prints it. -/
theorem selectMask_eq_ite (d : Word) :
    selectMask d = 0#32 - (if (d ||| (0#32 - d)).getLsbD 31 then 1#32 else 0#32) := by
  rw [selectMask, diffNonzero]
  cases (d ||| (0#32 - d)).getLsbD 31 <;> rfl

/-! ### The selected words -/

theorem selectWords_get (m : Word) (ka kb : Vector Word 8) (i : Fin 8) :
    (selectWords m ka kb)[i] = ka[i] ^^^ (m &&& (ka[i] ^^^ kb[i])) :=
  Vector.getElem_ofFn _

/-- Under the mask of zeros `KA ^ 0 = KA` is selected. -/
theorem selectWords_zero (ka kb : Vector Word 8) : selectWords 0#32 ka kb = ka :=
  Vector.ext fun i hi => by
    have h := selectWords_get 0#32 ka kb ⟨i, hi⟩
    rwa [BitVec.zero_and, BitVec.xor_zero] at h

/-- Under the mask of ones `KA ^ KA ^ KB = KB` is selected. -/
theorem selectWords_allOnes (ka kb : Vector Word 8) : selectWords (BitVec.allOnes 32) ka kb = kb :=
  Vector.ext fun i hi => by
    have h := selectWords_get (BitVec.allOnes 32) ka kb ⟨i, hi⟩
    rwa [BitVec.allOnes_and, ← BitVec.xor_assoc, BitVec.xor_self, BitVec.zero_xor] at h

theorem exec_csel (s : State) : exec .csel s = .next { s with kout := selectWords (selectMask s.diff) s.ka s.kb } := rfl

/-- Settles O26: KOUT takes the masked words, KA under the mask of zeros and KB under the mask of ones. -/
theorem cselSelectsByTheMask : Obligations.CselSelectsByTheMask := by
  refine ⟨legalWhenZero_of_row (n := "CSEL") (z := 0xFFFFFF#24) (by decide) (by decide), rfl,
    fun s => ⟨_, exec_csel s, rfl, fun i => ?masked, fun h => ?isMatch, fun h => ?isMismatch, exec_csel _⟩⟩
  case masked => rw [selectWords_get, selectMask_eq_ite]
  case isMatch => simp only [h, selectMask_zero, selectWords_zero]
  case isMismatch => simp only [selectMask_of_ne_zero h, selectWords_allOnes]

end Sys2Proof.Machine
end

section
/-! PROOFS. Housekeeping (`44_system.md` rule R160): NOP from its issue to its completion. -/

namespace Sys2Proof.Machine

theorem exec_nop (s : State) : exec .nop s = .next s := rfl

/-- Retiring the word that issue put into an empty PEND gives back the state before the issue (R82). -/
theorem State.retire_withPend {s : State} (hp : s.pend = none) (w : Word) : { s with pend := some w }.retire = s := by
  rw [State.retire, ← hp]

/-- Settles O27: issue accepts NOP on its word alone, and its completion only retires it. -/
theorem nopLeavesTheState : Obligations.NopLeavesTheState := by
  have hd : decode 0x00000000#32 = .ok .nop := encodeThenDecodeGivesTheCommand .nop rfl
  refine ⟨legalWhenZero_of_row (n := "NOP") (z := 0xFFFFFF#24) (by decide) (by decide), rfl,
    fun s => ⟨exec_nop s, fun hp => ⟨State.writeCmd_accepted hp hd rfl, ?completion⟩⟩⟩
  case completion => rw [complete_of_pend_some rfl hd, State.retire_withPend hp, exec_nop]

end Sys2Proof.Machine
end

section
/-! PROOFS. The faults of a transaction (`60_exceptions.md` rules R170 and R174 to R176): which check refuses it, and that
what is not refused sets no bit of ERR. -/

namespace Sys2Proof.Machine

variable {s : State} {off : Offset} {l : Loc}

/-! ### The checks by the numbers of the window map -/

/-- The offsets that a write (`true`) or a read (`false`) may not reach: those of the other access right (R36). -/
def Forbidden : (isWrite : Bool) → Nat → Prop
  | true => ReadOnly
  | false => WriteOnly

theorem forbidden_iff (isWrite : Bool) (l : Loc) : Forbidden isWrite l.offset ↔
    (isWrite = true ∧ l.writable = false) ∨ (isWrite = false ∧ l.readable = false) := by
  cases isWrite with
  | true => simpa [Forbidden] using readOnly_iff l
  | false => simpa [Forbidden] using writeOnly_iff l

theorem Loc.offset_aligned (l : Loc) : l.offset % 4 = 0 := by
  cases l <;> simp only [Loc.offset] <;> omega

theorem State.busy_of_pend_some {w : Word} (hp : s.pend = some w) : s.busy = true := by
  rw [State.busy, hp, Option.isSome_some]

/-- Checks 3 and 4 of R51: at a location's offset the access right and BUSY decide. -/
theorem State.checkAccess_offset (s : State) (isWrite : Bool) (ho : l.offset = off.toNat) :
    s.checkAccess isWrite off .four =
      if (isWrite = true ∧ l.writable = false) ∨ (isWrite = false ∧ l.readable = false) then .error .access
      else if s.busy = true ∧ ¬(isWrite = false ∧ l.readableWhileBusy = true) then .error .busyacc
      else .ok l := by
  have ha : off.extractLsb' 0 2 = 0#2 := (aligned_iff off).2 (ho ▸ l.offset_aligned)
  rw [State.checkAccess, if_neg (by simp [ha]), locate_offset ho]

/-- R176: size, alignment, mapping or the access right fails, whatever BUSY is. -/
theorem State.checkAccess_access (s : State) {isWrite : Bool} {size : Width}
    (h : size ≠ .four ∨ off.toNat % 4 ≠ 0 ∨ Unmapped off.toNat ∨ Forbidden isWrite off.toNat) :
    s.checkAccess isWrite off size = .error .access := by
  by_cases hm : size ≠ .four ∨ off.extractLsb' 0 2 ≠ 0#2
  · exact if_pos hm
  obtain ⟨rfl, ha⟩ : size = .four ∧ off.toNat % 4 = 0 := by simpa [aligned_iff] using hm
  by_cases hu : Unmapped off.toNat
  · rw [State.checkAccess, if_neg hm, locate, (locateAt_eq_none_iff off.isLt ha).2 hu]
  · obtain ⟨l, ho⟩ := exists_loc_of_mapped off.isLt ha hu
    have hf : Forbidden isWrite l.offset := by simpa [ha, hu, ho] using h
    rw [s.checkAccess_offset isWrite ho, if_pos ((forbidden_iff isWrite l).1 hf)]

/-- R175: while a command is pending nothing but a read of the five status locations passes check 4. -/
theorem State.checkAccess_busyacc {w : Word} (hp : s.pend = some w) {isWrite : Bool} (ha : off.toNat % 4 = 0)
    (hu : ¬Unmapped off.toNat) (hf : ¬Forbidden isWrite off.toNat) (hs : isWrite = false → ¬StatusOffset off.toNat) :
    s.checkAccess isWrite off .four = .error .busyacc := by
  obtain ⟨l, ho⟩ := exists_loc_of_mapped off.isLt ha hu
  rw [← ho] at hf hs
  rw [s.checkAccess_offset isWrite ho, if_neg (mt (forbidden_iff isWrite l).2 hf),
    if_pos ⟨State.busy_of_pend_some hp, fun h => hs h.1 ((statusOffset_iff l).2 h.2)⟩]

theorem State.hostWrite_refused {d : WriteData} {x : Cause} (h : s.checkAccess true off d.width = .error x) :
    s.hostWrite off d = s.raise x off d.zext := by
  simp only [State.hostWrite, h]

theorem State.hostRead_refused {size : Width} {x : Cause} (h : s.checkAccess false off size = .error x) :
    s.hostRead off size = (s.raise x off 0#32, 0#32) := by
  simp only [State.hostRead, h]

/-- Settles O44: check 1, 2 or 3 of R51 fails, before BUSY is looked at. -/
theorem malformedTransactionsRaiseAccess : Obligations.MalformedTransactionsRaiseAccess := fun s _ =>
  ⟨fun _ h => State.hostWrite_refused (s.checkAccess_access h),
    fun _ h => State.hostRead_refused (s.checkAccess_access h)⟩

/-- With BUSY 1, STATUS is 1 and FAULT in bit 1 (R33). -/
theorem State.statusWord_of_pend_some {w : Word} (hp : s.pend = some w) :
    s.statusWord = if s.err = 0#5 then 1#32 else 3#32 := by
  rw [State.statusWord, State.busy_of_pend_some hp]
  split
  · next he => rw [State.faulted, he]; rfl
  · next he => rw [State.faulted, bne_iff_ne.mpr he]; rfl

/-- Settles O45: check 4 of R51 refuses all but the reads of the five status locations, which return their values. -/
theorem pendingCommandRefusesOtherTransactions : Obligations.PendingCommandRefusesOtherTransactions := by
  intro s w off hp ha
  have read {o : Offset} (l : Loc) (ho : l.offset = o.toNat) (hr : l.readable = true)
      (hb : l.readableWhileBusy = true) : s.hostRead o .four = (s, s.readLoc l) :=
    State.hostRead_of_locate ho hr (.inr hb)
  refine ⟨fun v hu hf => ?write, fun hu hf hs => ?read, read .id rfl rfl rfl, ?status, read .err rfl rfl rfl,
    read .faddr rfl rfl rfl, read .fdata rfl rfl rfl⟩
  case write =>
    exact State.hostWrite_refused (d := .word v) (State.checkAccess_busyacc (isWrite := true) hp ha hu hf nofun)
  case read => exact State.hostRead_refused (State.checkAccess_busyacc (isWrite := false) hp ha hu hf fun _ => hs)
  case status => exact (read .status rfl rfl rfl).trans (congrArg (s, ·) (State.statusWord_of_pend_some hp))

/-- Settles O46: a write to a scalar register or a coefficient tests the whole word, and issue tests LDI's immediate. -/
theorem outOfRangeValuesRaiseRange : Obligations.OutOfRangeValuesRaiseRange := by
  intro s v hp
  have write := State.hostWrite_offset hp v
  refine ⟨fun r => write (.c r) rfl, fun p i => ⟨fun hv => ?refused, fun hv => ?stored⟩, fun cd imm hd hi => ?ldi⟩
  case refused => exact (write (.coef p i) rfl).trans (if_pos hv)
  case stored =>
    have hw : s.hostWrite (BitVec.ofNat 15 (Loc.coef p i).offset) (.word v) = s.setCoef p i (v.setWidth 12) :=
      (write (.coef p i) rfl).trans (if_neg (Nat.not_le.2 hv))
    exact hw ▸ ⟨s.setCoef_onlyCoef p i _, s.setCoef_read_same p i _⟩
  case ldi => exact State.writeCmd_refused hp hd (if_pos hi)

/-! ### A transaction raises one fault or acts -/

/-- From `s` to `t` no fault was raised: FADDR and FDATA stay and no bit of ERR is set. -/
def SetsNoFault (s t : State) : Prop := t.faddr = s.faddr ∧ t.fdata = s.fdata ∧ t.err ||| s.err = s.err

theorem SetsNoFault.of_same {t : State} (ha : t.faddr = s.faddr) (hd : t.fdata = s.fdata) (he : t.err = s.err) :
    SetsNoFault s t := ⟨ha, hd, by rw [he, BitVec.or_self]⟩

/-- The acknowledgement only clears bits of ERR (R179). -/
theorem State.acknowledge_setsNoFault (s : State) (v : Word) : SetsNoFault s (s.acknowledge v) := by
  refine ⟨rfl, rfl, ?_⟩
  rw [State.acknowledge_err]
  ext k
  simpa using fun h _ => h

/-- What a write that passed the checks does to the fault record: issue and an out-of-range value raise one fault. -/
theorem State.writeLoc_raises_or_setsNoFault (s : State) (v : Word) (ho : l.offset = off.toNat) :
    (∃ x, s.writeLoc off v l = s.raise x off v) ∨ SetsNoFault s (s.writeLoc off v l) := by
  rcases s.writeLoc_cases off v l with ⟨rfl, e⟩ | ⟨-, e⟩ | ⟨-, e⟩ | ⟨_, _, _, _, e⟩ | ⟨_, -, -, e⟩ | ⟨_, _, -, -, e⟩ |
    ⟨-, e⟩ <;> rw [e]
  · rcases s.issue_cases v with ⟨x, e'⟩ | ⟨i, -, -, e'⟩ <;> rw [e']
    · exact .inl ⟨x, by rw [offset_eq (n := 4) ho rfl]⟩
    · exact .inr (.of_same rfl rfl rfl)
  · exact .inr (s.acknowledge_setsNoFault v)
  · exact .inr (.of_same rfl rfl rfl)
  · exact .inr (.of_same rfl rfl rfl)
  · exact .inr (.of_same rfl rfl rfl)
  · exact .inr (.of_same rfl rfl rfl)
  · exact .inl ⟨.range, rfl⟩

/-- Settles O43: `State.raise` by its fields, a write by its location, a read by its two outcomes. -/
theorem everyTransactionFaultsOnceOrActs : Obligations.EveryTransactionFaultsOnceOrActs := by
  refine ⟨fun s x off v => ⟨?bit, fun h => ⟨if_pos h, if_pos h⟩, fun h => ⟨if_neg h, if_neg h⟩, s.raise_frame x off v⟩,
    fun s off d => ?write, fun s off size => ?read⟩
  case bit => cases x <;> rfl
  case write =>
    rcases s.hostWrite_cases off d with h | ⟨l, -, ho, -, -, h⟩
    · exact .inl h
    · rw [h]
      exact s.writeLoc_raises_or_setsNoFault d.zext ho
  case read => exact (s.hostRead_cases off size).imp_right fun ⟨_, _, _, _, h⟩ => congrArg Prod.fst h

end Sys2Proof.Machine
end

section
/-! PROOFS. The history of DIFF (`70_reset_and_hazards.md` rule R199, `10_state.md` rule R40): what each command and each
agent's step leaves in it. -/

namespace Sys2Proof.Machine

variable {s t : State}

/-- A command keeps DIFF, clears it (CTCLR, ZALL), or accumulates the difference of the pair (CTACC). -/
theorem exec_diff_cases {i : Instr} (h : exec i s = .next t) :
    t.diff = s.diff ∨ ((i = .ctclr ∨ i = .zall) ∧ t.diff = 0#32) ∨
      (i = .ctacc ∧ t.diff = s.diff ||| (s.cmpa ^^^ s.cmpb)) := by
  cases i <;> cases h
  case ctclr => exact .inr (.inl ⟨.inl rfl, rfl⟩)
  case zall => exact .inr (.inl ⟨.inr rfl, rfl⟩)
  case ctacc => exact .inr (.inr ⟨rfl, rfl⟩)
  all_goals exact .inl rfl

/-- A step keeps DIFF, clears it (completion of CTCLR or ZALL, reset), or completes CTACC. -/
theorem step_diff_cases (h : step s = .next t) :
    t.diff = s.diff ∨ ((s.Completes .ctclr ∨ s.Completes .zall ∨ s.Resets) ∧ t.diff = 0#32) ∨
      (s.Completes .ctacc ∧ t.diff = s.diff ||| (s.cmpa ^^^ s.cmpb)) := by
  rcases step_agent_cases h with ⟨x, es, -, rfl⟩ | ⟨es, hr, rfl⟩ | ⟨es, -, -, rfl⟩ | ⟨i, es, hi, hx⟩
  · obtain ⟨-, hd, -⟩ := (s.withEvents es).transact_keeps x
    exact .inl hd
  · exact .inr (.inl ⟨.inr (.inr hr), rfl⟩)
  · exact .inl rfl
  · rcases exec_diff_cases hx with hd | ⟨rfl | rfl, hd⟩ | ⟨rfl, hd⟩
    · exact .inl hd
    · exact .inr (.inl ⟨.inl hi, hd⟩)
    · exact .inr (.inl ⟨.inr (.inl hi), hd⟩)
    · exact .inr (.inr ⟨hi, hd⟩)

/-- Settles O59: a kept DIFF changes no bit, a cleared one sets none, and CTACC's OR clears none and sets the bits in
which the pair differs. -/
theorem diffBitsChangeOnlyByTheCompareCommands : Obligations.DiffBitsChangeOnlyByTheCompareCommands := by
  intro s t k h
  rcases step_diff_cases h with hd | ⟨hc, hd⟩ | ⟨hc, hd⟩
  · rw [hd]
    exact ⟨fun h1 h0 => absurd (h0.symm.trans h1) Bool.false_ne_true,
      fun h0 h1 => absurd (h0.symm.trans h1) Bool.false_ne_true⟩
  · refine ⟨fun _ _ => hc, fun _ h1 => ?_⟩
    rw [hd, BitVec.getLsbD_zero] at h1
    cases h1
  · rw [hd, BitVec.getLsbD_or, BitVec.getLsbD_xor]
    refine ⟨fun h1 h0 => ?_, fun h0 h1 => ⟨hc, ?_⟩⟩
    · rw [h1, Bool.true_or] at h0
      cases h0
    · rwa [h0, Bool.false_or, bne_iff_ne] at h1

end Sys2Proof.Machine
end

section
/-! PROOFS. The reset state and the reset event (`70_reset_and_hazards.md` rules R190 and R191). -/

namespace Sys2Proof.Machine

theorem State.reset_coefAt (p : Slot) (i : CoefIdx) : State.reset.coefAt p i = 0#12 := by
  simp [State.reset, State.coefAt]

/-- Every location of the reset state that the host may read can be read at once: nothing is pending. -/
theorem State.reset_hostRead_offset (l : Loc) (hr : l.readable = true) :
    (State.reset.hostRead (BitVec.ofNat 15 l.offset) .four).2 = State.reset.readLoc l :=
  congrArg Prod.snd (State.hostRead_offset rfl l hr)

/-- Settles O49: the fields as R191 gives them, and the reads by the location that each offset names. -/
theorem resetStateIsAllZero : Obligations.ResetStateIsAllZero := by
  have read := State.reset_hostRead_offset
  refine ⟨fun r => Vector.getElem_replicate _, State.reset_coefAt, fun p => BitVec.getLsbD_zero,
    fun i => ⟨Vector.getElem_replicate _, Vector.getElem_replicate _, Vector.getElem_replicate _⟩,
    rfl, rfl, rfl, rfl, rfl, rfl, rfl, ?status, read .id rfl, read .domtag rfl, fun z => ?zeta⟩
  case status => exact (read .status rfl).trans (State.statusWord_of_pend_none rfl)
  case zeta => exact (read (.zeta z) rfl).trans (zeta_setWidth z)

/-- Settles O50: the step of the reset event is `State.resetBlock`, which takes nothing from PEND. -/
theorem resetDiscardsThePendingCommand : Obligations.ResetDiscardsThePendingCommand := fun s es he =>
  calc step s = .next (s.withEvents es).resetBlock := step_of_events_cons he
    _ = .next { State.reset with events := es, replies := s.replies } := rfl

end Sys2Proof.Machine
end

section
/-! PROOFS. LDI (`40_scalar_arith.md` rule R107): the word, the register written, and the test of the immediate at
issue. -/

namespace Sys2Proof.Machine

/-! ### The outcome of issue for a command with one test -/

/-- The word of a command whose issue has the one test `p` fills PEND, or raises the fault of that test (R81). -/
theorem State.writeCmd_encode {s : State} (hp : s.pend = none) {i : Instr} (hi : i.WellFormed) {p : Prop} [Decidable p]
    {x : Cause} (hc : issueCheck s i = if p then none else some x) :
    s.writeCmd (encode i) =
      if p then { s with pend := some (encode i) } else s.raise x 0x0004#15 (encode i) := by
  have hd := encodeThenDecodeGivesTheCommand i hi
  by_cases h : p
  · rw [if_pos h] at hc ⊢
    exact State.writeCmd_accepted hp hd hc
  · rw [if_neg h] at hc ⊢
    exact State.writeCmd_refused hp hd hc

theorem word_si_eq_or (op : BitVec 8) (x : BitVec 4) (imm : BitVec 12) :
    (op ++ x ++ 0#8 ++ imm : Word) = (op ++ 0#24) ||| field x.toNat 20 ||| field imm.toNat 0 := by
  simp only [field_toNat]
  refine word_ext fun i hi => ?_
  simp only [BitVec.getLsbD_append, BitVec.getLsbD_or, BitVec.getLsbD_shiftLeft, BitVec.getLsbD_setWidth]
  interval_cases i <;> simp

theorem issueCheck_ldi (s : State) (cd : CReg) (imm : BitVec 12) :
    issueCheck s (.ldi cd imm) = if imm.toNat < 3329 then none else some .range := by
  simp only [issueCheck, ← Nat.not_lt, ite_not]

/-- Settles O12: one register is written with the immediate, which issue tests. -/
theorem ldiLoadsTheImmediate : Obligations.LdiLoadsTheImmediate := by
  refine ⟨legalWhenZero_of_row (n := "LDI") (z := 0x0FF000#24) (by decide) (by decide),
    fun cd imm => ⟨?word, ?effect, ?issue⟩⟩
  case word => exact word_si_eq_or 0x15#8 (nibble cd) imm
  case effect => exact fun s => ⟨_, rfl, s.setC_onlyScalars cd imm, s.setC_read_same cd imm⟩
  case issue => exact fun s hp => State.writeCmd_encode hp rfl (issueCheck_ldi s cd imm)

end Sys2Proof.Machine
end

section
/-! PROOFS. The printed loops of the transforms (`42_polynomial.md` rules R133 and R134): the running counter meets the
first root of every layer, so the loop over the seven lengths is the layers one after the other. -/

namespace Sys2Proof.Machine

/-- Where each pass of a loop is one layer and takes the running counter to its value for the next layer, the passes
together are the layers together. -/
theorem foldl_passes {pass : List Coef × Nat → Nat → List Coef × Nat} {layer : List Coef → Nat → List Coef}
    {len counter : Nat → Nat} {m : Nat} (hlength : ∀ n < m, ∀ g, g.length = 256 → (layer g (len n)).length = 256)
    (hpass : ∀ n < m, ∀ g, g.length = 256 → pass (g, counter n) (len n) = (layer g (len n), counter (n + 1)))
    {f : List Coef} (hf : f.length = 256) : ∀ n ≤ m,
      (((List.range n).map len).foldl layer f).length = 256 ∧
      ((List.range n).map len).foldl pass (f, counter 0) = (((List.range n).map len).foldl layer f, counter n)
  | 0, _ => ⟨hf, rfl⟩
  | n + 1, hn => by
    obtain ⟨hl, ih⟩ := foldl_passes hlength hpass hf n (Nat.le_of_lt hn)
    simp only [List.range_succ, List.map_append, List.foldl_append, List.map_cons, List.map_nil, List.foldl_cons,
      List.foldl_nil, ih]
    exact ⟨hlength n hn _ hl, hpass n hn _ hl⟩

/-- Before its layer `n` the forward loop has counted up to the layer's number of blocks. -/
theorem ntt_counter : ∀ n < 7, 128 / 2 ^ n ∈ [128, 64, 32, 16, 8, 4, 2] ∧ 128 / (128 / 2 ^ n) = 2 ^ n ∧
    2 ^ n + 2 ^ n = 2 ^ (n + 1) := by decide

/-- Before its layer `n` the inverse loop has counted down to the layer's first root. -/
theorem intt_counter : ∀ n < 7, 2 ^ (n + 1) ∈ [128, 64, 32, 16, 8, 4, 2] ∧ 256 / 2 ^ (n + 1) - 1 = 128 / 2 ^ n - 1 ∧
    128 / 2 ^ n - 1 - 128 / 2 ^ (n + 1) = 128 / 2 ^ (n + 1) - 1 := by decide

/-- One pass of R133's loop over the lengths: all blocks of a layer, with the running counter. -/
def nttPass (gk : List Coef × Nat) (len : Nat) : List Coef × Nat :=
  (List.range (128 / len)).foldl (fun gk b =>
    ((List.range len).foldl (fun g i => nttStep gk.2 len (2 * len * b + i) g) gk.1, gk.2 + 1)) gk

/-- One pass of R134's loop over the lengths. -/
def inttPass (fk : List Coef × Nat) (len : Nat) : List Coef × Nat :=
  (List.range (128 / len)).foldl (fun fk b =>
    ((List.range len).foldl (fun f i => inttStep fk.2 len (2 * len * b + i) f) fk.1, fk.2 - 1)) fk

theorem ntt_lengths : [128, 64, 32, 16, 8, 4, 2] = (List.range 7).map fun n => 128 / 2 ^ n := by decide

theorem intt_lengths : [2, 4, 8, 16, 32, 64, 128] = (List.range 7).map fun n => 2 ^ (n + 1) := by decide

theorem nttLoop_eq_passes (f : List Coef) : nttLoop f = ([128, 64, 32, 16, 8, 4, 2].foldl nttPass (f, 1)).1 := rfl

theorem inttLoop_eq_passes (g : List Coef) : inttLoop g =
    ([2, 4, 8, 16, 32, 64, 128].foldl inttPass (g, 127)).1.map fun v => mm v 512#12 := rfl

theorem ntt_toList (f : RingElt) : (ntt f).toList = nttLoop f.toList := by
  have hlength : ∀ n < 7, ∀ g, g.length = 256 → (nttLayer (128 / 2 ^ n) g).length = 256 := fun n hn _ hg =>
    nttLayer_length (ntt_counter n hn).1 hg
  have hpass : ∀ n < 7, ∀ g, g.length = 256 →
      nttPass (g, 2 ^ n) (128 / 2 ^ n) = (nttLayer (128 / 2 ^ n) g, 2 ^ (n + 1)) := fun n hn g hg => by
    obtain ⟨hmem, hcount, hnext⟩ := ntt_counter n hn
    have h : nttPass (g, _) _ = _ := nttLayer_loop hmem hg
    rwa [hcount, hnext] at h
  obtain ⟨hl, hloop⟩ := foldl_passes (layer := fun g len => nttLayer len g) (counter := fun n => 2 ^ n) hlength hpass
    f.length_toList 7 (Nat.le_refl 7)
  rw [← ntt_lengths] at hl hloop
  rw [ntt, ofCoefs_toList hl, nttLoop_eq_passes]
  exact (congrArg Prod.fst hloop).symm

theorem intt_toList (g : RingElt) : (intt g).toList = inttLoop g.toList := by
  have hlength : ∀ n < 7, ∀ f, f.length = 256 → (inttLayer (2 ^ (n + 1)) f).length = 256 := fun n hn _ hf =>
    inttLayer_length (intt_counter n hn).1 hf
  have hpass : ∀ n < 7, ∀ f, f.length = 256 → inttPass (f, 128 / 2 ^ n - 1) (2 ^ (n + 1)) =
      (inttLayer (2 ^ (n + 1)) f, 128 / 2 ^ (n + 1) - 1) := fun n hn f hf => by
    obtain ⟨hmem, hcount, hnext⟩ := intt_counter n hn
    have h : inttPass (f, _) _ = _ := inttLayer_loop hmem hf
    rwa [hcount, hnext] at h
  obtain ⟨hl, hloop⟩ := foldl_passes (layer := fun f len => inttLayer len f) (counter := fun n => 128 / 2 ^ n - 1)
    hlength hpass g.length_toList 7 (Nat.le_refl 7)
  rw [← intt_lengths] at hl hloop
  rw [intt, ofCoefs_toList ((List.length_map _).trans hl), inttLoop_eq_passes]
  exact congrArg (fun fk => fk.1.map fun v => mm v 512#12) hloop.symm

end Sys2Proof.Machine
end

section
/-! PROOFS. The array commands that compute (`42_polynomial.md` rules R130 to R135): the word, the slot and tag written,
the coefficients written there, and the tag test at issue. -/

namespace Sys2Proof.Machine

/-! ### The sum and the difference -/

theorem issueCheck_padd (s : State) (pd pa pb : Slot) :
    issueCheck s (.padd pd pa pb) = if s.tagOf pa = s.tagOf pb then none else some .domain := ite_not _ _ _

theorem issueCheck_psub (s : State) (pd pa pb : Slot) :
    issueCheck s (.psub pd pa pb) = if s.tagOf pa = s.tagOf pb then none else some .domain := ite_not _ _ _

/-- A coefficient of the slot just written. -/
theorem State.writeSlot_coefAt_same (s : State) (p : Slot) (f : RingElt) (b : Bool) (i : CoefIdx) :
    (s.writeSlot p f b).coefAt p i = f[i] := by
  rw [State.coefAt_eq, State.writeSlot_slot_same]

/-- Settles O17: the slot is written with the sums, under the tag of `pa`. -/
theorem paddStoresTheRingSum : Obligations.PaddStoresTheRingSum := by
  refine ⟨legalWhenZero_of_row (n := "PADD") (z := 0xFFF#24) (by decide) (by decide),
    fun pd pa pb => ⟨?word, fun s => ⟨_, rfl, s.writeSlot_onlySlot pd _ _, s.writeSlot_tagOf_same pd _ _, fun i => ?sum⟩,
      fun s hp => State.writeCmd_encode hp rfl (issueCheck_padd s pd pa pb)⟩⟩
  case word => exact word_s3_eq_or 0x20#8 (nibble pd) (nibble pa) (nibble pb)
  case sum =>
    rw [State.writeSlot_coefAt_same, Fin.getElem_fin, ringAdd_get, maddq_toNat]
    rfl

/-- Settles O18: the slot is written with the differences, under the tag of `pa`. -/
theorem psubStoresTheRingDifference : Obligations.PsubStoresTheRingDifference := by
  refine ⟨legalWhenZero_of_row (n := "PSUB") (z := 0xFFF#24) (by decide) (by decide),
    fun pd pa pb => ⟨?word, fun s => ⟨_, rfl, s.writeSlot_onlySlot pd _ _, s.writeSlot_tagOf_same pd _ _, fun i => ?diff⟩,
      fun s hp => State.writeCmd_encode hp rfl (issueCheck_psub s pd pa pb)⟩⟩
  case word => exact word_s3_eq_or 0x21#8 (nibble pd) (nibble pa) (nibble pb)
  case diff =>
    rw [State.writeSlot_coefAt_same, Fin.getElem_fin, ringSub_get, msubq_toInt]
    rfl

/-! ### The transforms -/

theorem issueCheck_pntt (s : State) (pd pa : Slot) :
    issueCheck s (.pntt pd pa) = if s.tagOf pa = false then none else some .domain := ite_not _ _ _

theorem issueCheck_pintt (s : State) (pd pa : Slot) :
    issueCheck s (.pintt pd pa) = if s.tagOf pa = true then none else some .domain := ite_not _ _ _

/-- Settles O19: the slot is written with the transform, which is the printed loop, under the tag of the NTT domain. -/
theorem pnttStoresTheForwardTransform : Obligations.PnttStoresTheForwardTransform := by
  refine ⟨legalWhenZero_of_row (n := "PNTT") (z := 0xFFFF#24) (by decide) (by decide),
    fun pd pa => ⟨?word, fun s => ⟨_, rfl, s.writeSlot_onlySlot pd _ _, s.writeSlot_tagOf_same pd _ _, ?loop⟩,
      fun s hp => State.writeCmd_encode hp rfl (issueCheck_pntt s pd pa)⟩⟩
  case word => exact word_p2_eq_or 0x23#8 (nibble pd) (nibble pa)
  case loop => rw [State.writeSlot_slot_same, ntt_toList]

/-- Settles O20: the slot is written with the inverse transform, which is the printed loop, under the normal tag. -/
theorem pinttStoresTheInverseTransform : Obligations.PinttStoresTheInverseTransform := by
  refine ⟨legalWhenZero_of_row (n := "PINTT") (z := 0xFFFF#24) (by decide) (by decide),
    fun pd pa => ⟨?word, fun s => ⟨_, rfl, s.writeSlot_onlySlot pd _ _, s.writeSlot_tagOf_same pd _ _, ?loop⟩,
      fun s hp => State.writeCmd_encode hp rfl (issueCheck_pintt s pd pa)⟩⟩
  case word => exact word_p2_eq_or 0x24#8 (nibble pd) (nibble pa)
  case loop => rw [State.writeSlot_slot_same, intt_toList]

/-! ### The product -/

/-- The two forms of GAMMA that R135 prints: odd pairs have the root of the even pair before them, negated. -/
theorem gamma_eq_ite : ∀ i < 128,
    gamma i = if i % 2 = 0 then zetaPlain (64 + i / 2) else 3329 - zetaPlain (64 + i / 2) := by decide

theorem pairProduct_fst_toNat (i : Nat) (a0 a1 b0 b1 : Coef) : (pairProduct i a0 a1 b0 b1).1.toNat =
    (a0.toNat * b0.toNat + a1.toNat * b1.toNat * 17 ^ (2 * brv7 i + 1)) % 3329 := by
  rw [pairProduct, toNat_ofNat_mod_q, gamma, Nat.add_mod, Nat.mul_mod_mod, ← Nat.add_mod]

theorem pairProduct_snd_toNat (i : Nat) (a0 a1 b0 b1 : Coef) : (pairProduct i a0 a1 b0 b1).2.toNat =
    (a0.toNat * b1.toNat + a1.toNat * b0.toNat) % 3329 := toNat_ofNat_mod_q _

theorem issueCheck_pmul (s : State) (pd pa pb : Slot) : issueCheck s (.pmul pd pa pb) =
    if s.tagOf pa = true ∧ s.tagOf pb = true then none else some .domain := rfl

/-- Settles O21: the slot is written with the pair products, under the tag of the NTT domain. -/
theorem pmulStoresThePairProducts : Obligations.PmulStoresThePairProducts := by
  refine ⟨legalWhenZero_of_row (n := "PMUL") (z := 0xFFF#24) (by decide) (by decide), gamma_eq_ite,
    fun pd pa pb => ⟨?word,
      fun s => ⟨_, rfl, s.writeSlot_onlySlot pd _ _, s.writeSlot_tagOf_same pd _ _, fun i => ?product⟩,
      fun s hp => State.writeCmd_encode hp rfl (issueCheck_pmul s pd pa pb)⟩⟩
  case word => exact word_s3_eq_or 0x22#8 (nibble pd) (nibble pa) (nibble pb)
  case product =>
    have h := baseMul_get (s.slot pa) (s.slot pb) i i.isLt
    simp only [State.writeSlot_coefAt_same]
    exact ⟨(congrArg (·.1.toNat) h).trans (pairProduct_fst_toNat _ _ _ _ _),
      (congrArg (·.2.toNat) h).trans (pairProduct_snd_toNat _ _ _ _ _)⟩

/-! ### What all seven have in common -/

/-- A command whose effect is one slot write of a canonical ring element (R130 (d) and (e)). -/
theorem writes_one_canonical_slot {i : Instr} {s : State} {pd : Slot} {f : RingElt} {b : Bool}
    (h : exec i s = .next (s.writeSlot pd f b)) (hf : CanonicalElt f) :
    ∃ t, exec i s = .next t ∧ OnlySlot pd s t ∧ CanonicalElt (t.slot pd) :=
  ⟨_, h, s.writeSlot_onlySlot pd f b, (s.writeSlot_slot_same pd f b).symm ▸ hf⟩

/-- Settles O29, command by command: each writes one ring element, canonical by its function; PCOPY's is canonical
because the source is. -/
theorem arrayCommandsWriteOneCanonicalSlot : Obligations.ArrayCommandsWriteOneCanonicalSlot := by
  rintro pd pa pb i hi s ⟨-, hslots⟩
  simp only [List.mem_cons, List.not_mem_nil, or_false] at hi
  rcases hi with rfl | rfl | rfl | rfl | rfl | rfl | rfl
  · exact writes_one_canonical_slot rfl (ringAdd_canonical (s.slot pa) (s.slot pb))
  · exact writes_one_canonical_slot rfl (ringSub_canonical (s.slot pa) (s.slot pb))
  · exact writes_one_canonical_slot rfl (baseMul_canonical (s.slot pa) (s.slot pb))
  · exact writes_one_canonical_slot rfl (ntt_canonical (s.slot pa))
  · exact writes_one_canonical_slot rfl (intt_canonical (s.slot pa))
  · exact writes_one_canonical_slot rfl (hslots pa)
  · exact writes_one_canonical_slot rfl ringZero_canonical

end Sys2Proof.Machine
end

section
/-! PROOFS. ZALL (`44_system.md` rule R161). -/

namespace Sys2Proof.Machine

theorem exec_zall (s : State) : exec .zall s = .next { State.reset with
    err := s.err, faddr := s.faddr, pend := s.pend, events := s.events, replies := s.replies } := rfl

/-- Settles O28: every field that ZALL writes takes its reset value. -/
theorem zallZeroizesAllButTheFaultRecord : Obligations.ZallZeroizesAllButTheFaultRecord :=
  ⟨legalWhenZero_of_row (n := "ZALL") (z := 0xFFFFFF#24) (by decide) (by decide), rfl, exec_zall⟩

end Sys2Proof.Machine
end

section
/-! PROOFS. The datapaths of the scalar units (`40_scalar_arith.md` rules R101 to R103): each bit vector as a number, and
the multiplexer on the borrow bit as a comparison. -/

namespace Sys2Proof.Machine

/-! ### A subtractor with its borrow bit -/

/-- The top bit of a difference, one bit wider than its operands, is set exactly when the second is the larger. -/
theorem borrow_iff {w : Nat} (x y : BitVec (w + 1)) (hx : x.toNat < 2 ^ w) (hy : y.toNat < 2 ^ w) :
    (x - y)[w] = true ↔ x.toNat < y.toNat := by
  have hbit : (x - y)[w] = (x - y).msb := by
    rw [BitVec.msb_eq_getLsbD_last, BitVec.getLsbD_eq_getElem]
    rfl
  rw [hbit, BitVec.msb_eq_decide, decide_eq_true_iff, Nat.add_sub_cancel]
  have hw : 2 ^ (w + 1) = 2 * 2 ^ w := by rw [Nat.pow_succ, Nat.mul_comm]
  rw [BitVec.toNat_sub, hw]
  generalize 2 ^ w = n at *
  rcases Nat.lt_or_ge x.toNat y.toNat with h | h
  · rw [Nat.mod_eq_of_lt (by omega)]
    omega
  · rw [show 2 * n - y.toNat + x.toNat = x.toNat - y.toNat + 2 * n by omega, Nat.add_mod_right,
      Nat.mod_eq_of_lt (by omega)]
    omega

/-- The multiplexer that R101 and R102 end with takes a value below 2q to its residue. -/
theorem reduceOnce_toNat {w : Nat} (hw : 12 ≤ w) (x : BitVec (w + 1)) (hx : x.toNat < 2 ^ w) (h2 : x.toNat < 2 * 3329) :
    (if (x - BitVec.ofNat (w + 1) Config.q)[w] then x.setWidth 12
      else (x - BitVec.ofNat (w + 1) Config.q).setWidth 12).toNat = x.toNat % 3329 := by
  have hpow : 2 ^ 12 ≤ 2 ^ w := Nat.pow_le_pow_right (by decide) hw
  have hq : (BitVec.ofNat (w + 1) Config.q).toNat = 3329 :=
    Nat.mod_eq_of_lt (by rw [Nat.pow_succ]; simp only [Config.q]; omega)
  by_cases h : x.toNat < 3329
  · rw [if_pos ((borrow_iff _ _ hx (by omega)).2 (by omega)), BitVec.toNat_setWidth]
    omega
  · rw [if_neg (mt (borrow_iff _ _ hx (by omega)).1 (by omega)), BitVec.toNat_setWidth,
      BitVec.toNat_sub_of_le (BitVec.le_def.2 (by omega)), hq]
    omega

/-! ### The multiplier (R101) -/

section
variable {a b : Coef} (ha : Canonical a) (hb : Canonical b)
include ha hb

theorem product_le : a.toNat * b.toNat ≤ 3328 * 3328 := Nat.mul_le_mul (Nat.le_of_lt_succ ha) (Nat.le_of_lt_succ hb)

theorem mmT_toNat : (mmT a b).toNat = a.toNat * b.toNat := by
  have h := product_le ha hb
  rw [mmT, BitVec.toNat_mul, BitVec.toNat_setWidth_of_le (by decide), BitVec.toNat_setWidth_of_le (by decide),
    Nat.mod_eq_of_lt (by omega)]

theorem mmM_toNat : (mmM a b).toNat = a.toNat * b.toNat * 3327 % 65536 := by
  rw [mmM, BitVec.toNat_mul, BitVec.toNat_setWidth, mmT_toNat ha hb]
  exact Nat.mod_mul_mod _ _ _

/-- The sum fits its 28 bits. -/
theorem mmS_toNat : (mmS a b).toNat = a.toNat * b.toNat + (mmM a b).toNat * 3329 := by
  have h := product_le ha hb
  have hm := (mmM a b).isLt
  have hq : (BitVec.ofNat 28 Config.q).toNat = 3329 := rfl
  rw [mmS, BitVec.toNat_add, BitVec.toNat_mul, BitVec.toNat_setWidth_of_le (by decide),
    BitVec.toNat_setWidth_of_le (by decide), mmT_toNat ha hb, hq]
  omega

/-- `1 + 3327 * 3329` is a multiple of `2^16`, so the shift of the sum loses nothing. -/
theorem mmQuot_toNat_mul : (mmQuot a b).toNat * 65536 = (mmS a b).toNat := by
  have hs := mmS_toNat ha hb
  have hm := mmM_toNat ha hb
  have hq : (mmQuot a b).toNat = (mmS a b).toNat / 65536 := by
    rw [mmQuot, BitVec.extractLsb'_toNat, Nat.shiftRight_eq_div_pow]
    have := (mmS a b).isLt
    omega
  omega

theorem mmS_lt : (mmS a b).toNat < 229244928 := by
  have h := product_le ha hb
  have hs := mmS_toNat ha hb
  have hm := (mmM a b).isLt
  omega

theorem mmQuot_le : (mmQuot a b).toNat ≤ 3497 := by
  have h := mmS_lt ha hb
  have hq := mmQuot_toNat_mul ha hb
  omega

theorem mmS_low : (mmS a b).setWidth 16 = 0#16 := by
  have hq := mmQuot_toNat_mul ha hb
  refine BitVec.eq_of_toNat_eq ?_
  rw [BitVec.toNat_setWidth, ← hq]
  exact Nat.mul_mod_left _ _

theorem mmDatapath_eq : mmDatapath a b = mm a b := by
  have ht := mmQuot_le ha hb
  have hq := mmQuot_toNat_mul ha hb
  have hs := mmS_toNat ha hb
  have hw : ((mmQuot a b).setWidth 13).toNat = (mmQuot a b).toNat := BitVec.toNat_setWidth_of_le (by decide)
  have hr := reduceOnce_toNat (Nat.le_refl 12) ((mmQuot a b).setWidth 13) (by omega) (by omega)
  rw [BitVec.setWidth_setWidth_of_le _ (by decide), BitVec.setWidth_eq, hw] at hr
  refine BitVec.eq_of_toNat_eq (hr.trans ?_)
  rw [mm_toNat]
  omega

end

/-- Settles O30: the sum by its parts, the shift because its low bits are 0, the multiplexer as one subtraction of q. -/
theorem montgomeryDatapathGivesTheProduct : Obligations.MontgomeryDatapathGivesTheProduct := fun _ _ ha hb =>
  ⟨mmS_lt ha hb, mmS_toNat ha hb, mmS_low ha hb, mmQuot_le ha hb, mmDatapath_eq ha hb⟩

/-! ### The adder and the subtractor (R102, R103) -/

section
variable {a b : Coef} (ha : Canonical a) (hb : Canonical b)
include ha hb

theorem maddqDatapath_eq : maddqDatapath a b = maddq a b := by
  rw [Canonical] at ha hb
  have hs : (a.setWidth 13 + b.setWidth 13).toNat = a.toNat + b.toNat := by
    rw [BitVec.toNat_add, BitVec.toNat_setWidth_of_le (by decide), BitVec.toNat_setWidth_of_le (by decide)]
    omega
  have hw : ((a.setWidth 13 + b.setWidth 13).setWidth 14).toNat = a.toNat + b.toNat :=
    (BitVec.toNat_setWidth_of_le (by decide)).trans hs
  have hr := reduceOnce_toNat (by decide) ((a.setWidth 13 + b.setWidth 13).setWidth 14) (by omega) (by omega)
  rw [BitVec.setWidth_setWidth_of_le _ (by decide), hw] at hr
  exact BitVec.eq_of_toNat_eq (hr.trans (maddq_toNat a b).symm)

theorem msubq_toNat_ite : (msubq a b).toNat =
    if b.toNat ≤ a.toNat then a.toNat - b.toNat else a.toNat + 3329 - b.toNat := by
  have h := msubq_toInt a b
  rw [Canonical] at ha hb
  split <;> omega

theorem msubqDatapath_eq : msubqDatapath a b = msubq a b := by
  refine BitVec.eq_of_toNat_eq ?_
  rw [msubq_toNat_ite ha hb, msubqDatapath]
  rw [Canonical] at ha hb
  have hwa : (a.setWidth 13).toNat = a.toNat := BitVec.toNat_setWidth_of_le (by decide)
  have hwb : (b.setWidth 13).toNat = b.toNat := BitVec.toNat_setWidth_of_le (by decide)
  have hborrow := borrow_iff (a.setWidth 13) (b.setWidth 13) (by omega) (by omega)
  have hq : (BitVec.ofNat 13 Config.q).toNat = 3329 := rfl
  by_cases h : b.toNat ≤ a.toNat
  · rw [if_pos h, if_neg (mt hborrow.1 (by omega)), BitVec.toNat_setWidth, BitVec.toNat_sub]
    omega
  · rw [if_neg h, if_pos (hborrow.2 (by omega)), BitVec.toNat_setWidth, BitVec.toNat_add, BitVec.toNat_sub]
    omega

end

theorem msubq_maddq {a : Coef} (ha : Canonical a) (b : Coef) : msubq (maddq a b) b = a := by
  refine residue_injective (msubq_canonical _ _) ha ?_
  rw [residue_msubq, residue_maddq, add_sub_cancel_right]

/-- Settles O31: the adder as one subtraction of q, the subtractor by its borrow bit, the last law as residues. -/
theorem addSubDatapathsGiveTheResidues : Obligations.AddSubDatapathsGiveTheResidues := fun a b ha hb =>
  ⟨maddqDatapath_eq ha hb, maddq_toNat a b, msubqDatapath_eq ha hb, msubq_maddq ha b, msubq_toNat_ite ha hb⟩

/-! ### The pair product by the units (R135) -/

/-- GAMMA(i) by the stored root that pairs `2j` and `2j+1` share, negated for the odd one. -/
theorem gammaResidue_eq_root {i : Nat} (hi : i < 128) :
    gammaResidue i = (if i % 2 = 0 then 1 else -1) * 17 ^ brv7 (64 + i / 2) := by
  have h := gammaResidue_pow (h := 1) (by decide) hi
  rwa [pow_one, Nat.div_one] at h

/-- The unit that negates for odd pairs, as a residue. -/
theorem residue_pair_sign (i : Nat) (u : Coef) : residue (if i % 2 = 1 then msubq 0#12 u else u) =
    (if i % 2 = 0 then 1 else -1) * residue u := by
  have h0 : residue 0#12 = 0 := rfl
  rcases Nat.mod_two_eq_zero_or_one i with h | h
  · rw [if_neg (by omega), if_pos h, one_mul]
  · rw [if_pos h, if_neg (by omega), residue_msubq, h0]
    ring

theorem residue_r2 : residue (BitVec.ofNat 12 Config.r2) = 1353 := rfl

/-- The last product with 1353 takes away the factor 169 of a product on the way, and its own. -/
theorem r2_cancels : (169 * 1353 * 169 : ZMod 3329) = 1 := by decide

theorem pairProductDatapath_fst {i : Nat} (hi : i < 128) (a0 a1 b0 b1 : Coef) :
    (pairProductDatapath i a0 a1 b0 b1).1 = (pairProduct i a0 a1 b0 b1).1 := by
  obtain ⟨hcanonical, -⟩ := pairProduct_canonical i a0 a1 b0 b1
  refine residue_injective (mm_canonical _ _) hcanonical ?_
  simp only [pairProductDatapath, residue_r2, residue_maddq, residue_pair_sign, mm_comm _ (zeta _),
    residue_mm_zeta (show 64 + i / 2 < 128 by omega), residue_pairProduct_fst, gammaResidue_eq_root hi, residue_mm]
  linear_combination (residue a0 * residue b0 + (if i % 2 = 0 then 1 else -1) * 17 ^ brv7 (64 + i / 2) *
    (residue a1 * residue b1)) * r2_cancels

theorem pairProductDatapath_snd (i : Nat) (a0 a1 b0 b1 : Coef) :
    (pairProductDatapath i a0 a1 b0 b1).2 = (pairProduct i a0 a1 b0 b1).2 := by
  obtain ⟨-, hcanonical⟩ := pairProduct_canonical i a0 a1 b0 b1
  refine residue_injective (mm_canonical _ _) hcanonical ?_
  simp only [pairProductDatapath, residue_r2, residue_maddq, residue_pairProduct_snd, residue_mm]
  linear_combination (residue a0 * residue b1 + residue a1 * residue b0) * r2_cancels

/-- Settles O40: both coefficients are canonical and have the same residues. -/
theorem pairProductDatapathGivesThePairProduct : Obligations.PairProductDatapathGivesThePairProduct :=
  fun i hi a0 a1 b0 b1 _ _ _ _ =>
    Prod.ext (pairProductDatapath_fst hi a0 a1 b0 b1) (pairProductDatapath_snd i a0 a1 b0 b1)

end Sys2Proof.Machine
end

section
/-! PROOFS. The meaning of the forward transform in numbers (`42_polynomial.md` rule R133). -/

namespace Sys2Proof.Machine

/-- The coefficients of parity `o` as a polynomial at GAMMA(i), in numbers. -/
theorem blockValue_eq_natCast {i o : Nat} (hi : i < 128) (ho : o < 2) (f : RingElt) :
    blockValue f.toList 128 i o =
      ((∑ k : Fin 128, (f[2 * k.val + o]'(by omega)).toNat * 17 ^ ((2 * brv7 i + 1) * k.val) : Nat) : ZMod 3329) := by
  have hb : i / 128 = 0 := Nat.div_eq_of_lt hi
  rw [blockValue, ← Fin.sum_univ_eq_sum_range (n := 128), hb, Nat.cast_sum]
  refine Finset.sum_congr rfl fun k _ => ?_
  rw [Nat.zero_mul, Nat.zero_add, getD_toList f (by omega), gammaResidue, ← pow_mul, Nat.cast_mul, Nat.cast_pow]
  rfl

theorem ntt_get_toNat {i o : Nat} (hi : i < 128) (ho : o < 2) (f : RingElt) :
    ((ntt f)[2 * i + o]'(by omega)).toNat =
      (∑ k : Fin 128, (f[2 * k.val + o]'(by omega)).toNat * 17 ^ ((2 * brv7 i + 1) * k.val)) % 3329 :=
  toNat_of_residue (ntt_canonical f ⟨2 * i + o, by omega⟩) ((residue_ntt hi ho f).trans (blockValue_eq_natCast hi ho f))

/-- Settles O36: the entries of pair `i` are the values of the two parities at GAMMA(i). -/
theorem forwardTransformIsReductionModuloTheQuadratics : Obligations.ForwardTransformIsReductionModuloTheQuadratics :=
  fun f i => ⟨ntt_get_toNat (o := 0) i.isLt (by decide) f, ntt_get_toNat (o := 1) i.isLt (by decide) f⟩

end Sys2Proof.Machine
end
